-- ==== Sys2Proof/Word.lean ====
section
/-! DEFINITION. The word types of the block's interfaces and registers. -/

namespace Sys2Proof

/-- One 32-bit register value, operand, response value, or (in its low OUT_W bits, the bits above
them 0) one sample or noise word. -/
abbrev Word := BitVec 32

/-- One 64-bit command word (30_encoding.md R70). -/
abbrev CmdWord := BitVec 64

/-- One byte of a byte-wide transport (20_memory.md R57). -/
abbrev Byte := BitVec 8

end Sys2Proof
end

