-- ==== Sys2Proof/Config.lean ====
section
/-! DEFINITION. The implementation parameters of an instance (00_scope.md R5 to R8) and its fixed
constants. The spec's free input, the noise words (93_implementation_defined.md I1), is a stream of
State and needs no constant here. T_CMD and T_SMP have no value in the model (R178). -/

namespace Sys2Proof

/-- The parameters the model takes, with the proof that each is legal. A value outside the legal
ranges cannot be written down: 93_implementation_defined.md I12 says `refuse`, "the model cannot
express it". -/
structure Params where
  /-- PHASE_W, the width of every phase accumulator and of INC (R5). -/
  phaseW : Nat
  /-- OUT_W, the width of a sample word (R6). -/
  outW : Nat
  /-- FRAC, the fraction bits of a sample word (R6). -/
  frac : Nat
  /-- SAMPLE_RATE in Hz (R7). -/
  sampleRate : Nat
  phaseW_legal : 2 ≤ phaseW ∧ phaseW ≤ 32
  frac_legal : 1 ≤ frac
  outW_legal : frac + 2 ≤ outW ∧ outW ≤ 32
  /-- R7 asks for a positive integer. DEDUCED (log entry 2): SRATE reports it as a 32-bit unsigned
  integer (R31), so it is below 2^32. -/
  rate_legal : 1 ≤ sampleRate ∧ sampleRate < 2 ^ 32
  deriving DecidableEq, Repr

namespace Params

/-- The defaults: PHASE_W = 32, OUT_W = 24, FRAC = 20, SAMPLE_RATE = 44100 (R5 to R7). -/
def default : Params where
  phaseW := 32
  outW := 24
  frac := 20
  sampleRate := 44100
  phaseW_legal := by decide
  frac_legal := by decide
  outW_legal := by decide
  rate_legal := by decide

/-- M = 2^PHASE_W: the phase words of one turn (00_scope.md R14, 40_generate.md section 2). -/
def turn (p : Params) : Nat := 2 ^ p.phaseW

/-- M/2, half a turn. -/
def halfTurn (p : Params) : Nat := 2 ^ (p.phaseW - 1)

/-- M/4, a quarter turn (whole, since PHASE_W ≥ 2). -/
def quarterTurn (p : Params) : Nat := 2 ^ (p.phaseW - 2)

/-- 2^FRAC: the sample-word integer that stands for +1.0 (30_encoding.md R83). -/
def unit (p : Params) : Nat := 2 ^ p.frac

end Params

/-- The interface version that CAPS[31:24] reports (00_scope.md R1, 10_state.md R30). -/
def interfaceVersion : Nat := 1

/-- The address of the first reserved register (10_state.md R29). -/
def firstReservedAddr : Nat := 0x10

end Sys2Proof
end

