-- ==== Sys2Proof/Syntax.lean ====
section
/-! DEFINITION. The commands: one constructor per row of spec/opcode_table.json (30_encoding.md R75). -/

namespace Sys2Proof

/-- A command that matches its row of the opcode table (30_encoding.md R76). ADDR and DATA stand as
the word holds them: which register, if any, an ADDR names is decided when the command runs
(41_control.md R131 and R140). -/
inductive Instr where
  /-- `NOP` (41_control.md R130). -/
  | nop
  /-- `WRREG reg, v` (41_control.md R131). -/
  | wrreg (addr : BitVec 8) (data : Word)
  /-- `RDREG reg` (41_control.md R140). -/
  | rdreg (addr : BitVec 8)
  /-- `GEN n` (40_generate.md R115). -/
  | gen (n : Word)
  /-- `RSTPH` (41_control.md R142). -/
  | rstph
  deriving DecidableEq, Repr

end Sys2Proof
end

