-- ==== Sys2Proof/WellFormed.lean ====
section
/-! DEFINITION. The checks a well-formed command passes: those of 30_encoding.md R79 that its fields
can still fail once the word has matched a row. A command that fails one is still a command: it runs,
and takes E_ADDR or E_RO. -/

namespace Sys2Proof

/-- R79 check (3): the address names a register, 0x00 to 0x0F. -/
def addrDefined (addr : BitVec 8) : Bool := decide (addr.toNat < firstReservedAddr)

/-- R79 check (4): the address is not that of INC, CAPS or SRATE. -/
def addrWritable (addr : BitVec 8) : Bool := addr != 0x04#8 && addr != 0x0E#8 && addr != 0x0F#8

/-- The command passes every check of R79, so that it executes without an error. -/
def Instr.wellFormed : Instr → Bool
  | .nop => true
  | .wrreg addr _ => addrDefined addr && addrWritable addr
  | .rdreg addr => addrDefined addr
  | .gen _ => true
  | .rstph => true

end Sys2Proof
end

