-- ==== Sys2Proof/Decode.lean ====
section
/-! DEFINITION. The decoder of command words, total and rejecting by name, the encoder, the opcode
table's rows, and the byte order of a command word on a byte-wide transport. -/

namespace Sys2Proof

/-- The errors of 60_exceptions.md R151. -/
inductive ErrorCode where
  /-- E_OPCODE: OP is in 0x05..0xFF. Raised by the decoder. -/
  | opcode
  /-- E_RSVD: a reserved field is nonzero. Raised by the decoder. -/
  | rsvd
  /-- E_ADDR: WRREG or RDREG with ADDR in 0x10..0xFF. Raised by those commands. -/
  | addr
  /-- E_RO: WRREG to INC, CAPS or SRATE. Raised by that command. -/
  | ro
  deriving DecidableEq, Repr

/-- The code in a response's status and in STATUS.ECODE (R151). -/
def ErrorCode.code : ErrorCode → BitVec 4
  | .opcode => 1#4
  | .rsvd => 2#4
  | .addr => 3#4
  | .ro => 4#4

/-- OP = word[63:56] (30_encoding.md R70). -/
def opField (w : CmdWord) : BitVec 8 := w.extractLsb' 56 8

/-- ADDR = word[55:48] (R70). -/
def addrField (w : CmdWord) : BitVec 8 := w.extractLsb' 48 8

/-- RSVD = word[47:32] (R70). -/
def rsvdField (w : CmdWord) : BitVec 16 := w.extractLsb' 32 16

/-- DATA = word[31:0] (R70). -/
def dataField (w : CmdWord) : Word := w.extractLsb' 0 32

/-- Decode one command word, with checks (1) and (2) of R79 in that order: an illegal OP is E_OPCODE
whatever the other fields hold (R77), and a nonzero reserved field of a defined OP is E_RSVD (R78). -/
def decode (w : CmdWord) : Except ErrorCode Instr :=
  if opField w = 0x00#8 then
    if addrField w = 0 ∧ rsvdField w = 0 ∧ dataField w = 0 then .ok .nop else .error .rsvd
  else if opField w = 0x01#8 then
    if rsvdField w = 0 then .ok (.wrreg (addrField w) (dataField w)) else .error .rsvd
  else if opField w = 0x02#8 then
    if rsvdField w = 0 ∧ dataField w = 0 then .ok (.rdreg (addrField w)) else .error .rsvd
  else if opField w = 0x03#8 then
    if addrField w = 0 ∧ rsvdField w = 0 then .ok (.gen (dataField w)) else .error .rsvd
  else if opField w = 0x04#8 then
    if addrField w = 0 ∧ rsvdField w = 0 ∧ dataField w = 0 then .ok .rstph else .error .rsvd
  else .error .opcode

/-- The word with the four fields of R70, RSVD = 0. -/
def packFields (op addr : BitVec 8) (data : Word) : CmdWord := op ++ addr ++ 0#16 ++ data

/-- The word of a command, from the table of R75. -/
def encode : Instr → CmdWord
  | .nop => packFields 0x00#8 0#8 0#32
  | .wrreg addr data => packFields 0x01#8 addr data
  | .rdreg addr => packFields 0x02#8 addr 0#32
  | .gen n => packFields 0x03#8 0#8 n
  | .rstph => packFields 0x04#8 0#8 0#32

/-- A row of the opcode table: a word w spells the command when `w &&& mask = pattern` (R76). -/
structure OpcodeRow where
  mnemonic : String
  pattern : CmdWord
  mask : CmdWord
  deriving DecidableEq, Repr

/-- The row of R76 for each command. -/
def Instr.row : Instr → OpcodeRow
  | .nop => ⟨"NOP", 0x0000000000000000#64, 0xFFFFFFFFFFFFFFFF#64⟩
  | .wrreg _ _ => ⟨"WRREG", 0x0100000000000000#64, 0xFF00FFFF00000000#64⟩
  | .rdreg _ => ⟨"RDREG", 0x0200000000000000#64, 0xFF00FFFFFFFFFFFF#64⟩
  | .gen _ => ⟨"GEN", 0x0300000000000000#64, 0xFFFFFFFF00000000#64⟩
  | .rstph => ⟨"RSTPH", 0x0400000000000000#64, 0xFFFFFFFFFFFFFFFF#64⟩

/-- The five rows of R76, in the table's order. -/
def opcodeTable : List OpcodeRow :=
  [Instr.nop.row, (Instr.wrreg 0 0).row, (Instr.rdreg 0).row, (Instr.gen 0).row, Instr.rstph.row]

/-- A word spells the command of a row (R76). -/
def OpcodeRow.spells (r : OpcodeRow) (w : CmdWord) : Bool := w &&& r.mask == r.pattern

/-- The n bytes of a number, least significant first (20_memory.md R57). -/
def bytesLE : Nat → Nat → List Byte
  | 0, _ => []
  | n + 1, v => BitVec.ofNat 8 v :: bytesLE n (v / 256)

/-- The number whose bytes, least significant first, are the list (R57). -/
def ofBytesLE : List Byte → Nat
  | [] => 0
  | b :: bs => b.toNat + 256 * ofBytesLE bs

/-- A command word as it is sent over a byte-wide transport (R57). -/
def cmdBytes (w : CmdWord) : List Byte := bytesLE 8 w.toNat

/-- Decode the first command of a byte sequence and return the rest (R57, R70, R81). DESIGN CHOICE (log entry
8): where fewer than the 8 bytes of a command are there, there is no command yet. -/
def decodeBytes (bs : List Byte) : Option (Except ErrorCode Instr × List Byte) :=
  if bs.length < 8 then none
  else some (decode (BitVec.ofNat 64 (ofBytesLE (bs.take 8))), bs.drop 8)

/-- The instruction the decoder reads from a word numbered as spec/opcode_table.json numbers it: bits
above nbits are 0, and a command has exactly 64 bits (R70). -/
def decodeTableWord (nbits w : Nat) : Option Instr :=
  if 64 < nbits then none
  else
    match decode (BitVec.ofNat 64 (w % 2 ^ nbits)) with
    | .ok i => some i
    | .error _ => none

end Sys2Proof
end

