-- ==== Sys2Proof/Machine/State.lean ====
section
/-! DEFINITION. The architectural state of one instance (10_state.md R20), its command in progress and
streams (R35, 20_memory.md R52 to R56), the reset state (70_reset_and_hazards.md R170, R172), and the
reasons a step can stop. -/

namespace Sys2Proof.Machine

/-- The overtone numbers k = 2..8 (00_scope.md R8). -/
inductive Overtone where
  | k2 | k3 | k4 | k5 | k6 | k7 | k8
  deriving DecidableEq, Repr

/-- The seven harmonic phase accumulators HPH[2..8] (10_state.md R22, 90_conflicts.md C1). -/
structure HarmonicPhases where
  h2 : Word
  h3 : Word
  h4 : Word
  h5 : Word
  h6 : Word
  h7 : Word
  h8 : Word
  deriving DecidableEq, Repr

/-- The registers that an address 0x00 to 0x0F names (10_state.md R20). -/
inductive Reg where
  | wave | freq | detune | harm | inc | phase
  | hph (k : Overtone)
  | status | caps | srate
  deriving DecidableEq, Repr

/-- The waveforms (10_state.md R23). -/
inductive Waveform where
  | sine | saw | triangle | pulse | noise
  deriving DecidableEq, Repr

/-- One response `{status, data}` (30_encoding.md R82). -/
structure Response where
  status : BitVec 4
  data : Word
  deriving DecidableEq, Repr

/-- What is left of a command in progress that is held (20_memory.md R56, 10_state.md R35; log entry
10). -/
inductive Busy where
  /-- A `GEN n` at sample i. `pending` is none while it waits for the noise word of sample i, and
  the computed sample i while it waits for the host to take it (40_generate.md R113). -/
  | gen (n : Word) (i : Nat) (pending : Option Word)
  /-- A command whose only remaining act is to send its response. -/
  | respond (r : Response)
  deriving DecidableEq, Repr

/-- How many more words of an output stream the host will take (70_reset_and_hazards.md R175). It is
the host's side of valid/ready, in transaction terms (log entry 4). -/
inductive Readiness where
  /-- The host takes every word, as R175 obliges it to. -/
  | always
  /-- The host takes n more words and then takes none until it is ready again. -/
  | credit (n : Nat)
  deriving DecidableEq, Repr

/-- The state. The registers are those of 10_state.md R20. A phase register is PHASE_W bits wide; it
stands in the low bits of a Word, the bits above them 0 (an invariant of every step; log entry 3). -/
structure State where
  /-- The instance's parameters (R5 to R7; log entry 1); no command changes them. -/
  params : Params
  /-- WAVE, 3 bits (R23). -/
  wave : BitVec 3
  /-- FREQ, UQ16.16 Hz (R24). -/
  freq : Word
  /-- DETUNE, two's complement, 1/256 semitone (R25). -/
  detune : BitVec 16
  /-- HARM, UQ1.15, at most 0x8000 (R26). -/
  harm : BitVec 16
  /-- PHASE, PHASE_W bits (R21). -/
  phase : Word
  /-- HPH[2..8], PHASE_W bits each (R22). -/
  hph : HarmonicPhases
  /-- STATUS.ERR (R28). -/
  err : Bool
  /-- STATUS.ECODE (R28). -/
  ecode : BitVec 4
  /-- The command in progress, where one is held (R35, R56). -/
  busy : Option Busy
  /-- The host's reset request, rst_n = 0 (R170). -/
  rst : Bool
  /-- Command words the host has offered and the block has not taken, oldest first (R52). -/
  cmd : List CmdWord
  /-- Noise words offered and not yet taken, oldest first; the low OUT_W bits count (R55, R84). Their
  values are free inputs (93_implementation_defined.md I1; log entry 14). -/
  nz : List Word
  /-- Sample words that have moved on the sample stream, oldest first (R54, R83; log entry 17). -/
  smp : List Word
  /-- The host's readiness on the sample stream (R56). -/
  smpReady : Readiness
  /-- Responses that have moved on the response stream, oldest first (R53; log entry 17). -/
  rsp : List Response
  /-- The host's readiness on the response stream (R56). -/
  rspReady : Readiness
  deriving DecidableEq, Repr

/-- The faults a step can stop with: none. The spec's errors are command rejections, after which the
block goes on (60_exceptions.md R150, R154), and a hold is a state in which the command waits
(20_memory.md R56). No meaning raises a fault, so this type is empty; that is safe, since a run goes
on wherever the block's does. -/
inductive Fault where
  deriving DecidableEq, Repr

/-- The refusals of a step. -/
inductive Refusal where
  /-- Raised by an arm of exec for an instruction that has no meaning yet; no arm is one. Safe: a run
  stops where the hardware goes on. -/
  | notModelled (mnemonic : String)
  deriving DecidableEq, Repr

/-- All seven harmonic phases 0. -/
def HarmonicPhases.zero : HarmonicPhases := ⟨0, 0, 0, 0, 0, 0, 0⟩

/-- The reset state of an instance with the given parameters (70_reset_and_hazards.md R170, R172):
every register 0, no command in progress, streams empty. The host is ready on both output streams and
asks for no reset (DESIGN CHOICE, log entry 5). -/
def State.resetOf (p : Params) : State where
  params := p
  wave := 0
  freq := 0
  detune := 0
  harm := 0
  phase := 0
  hph := HarmonicPhases.zero
  err := false
  ecode := 0
  busy := none
  rst := false
  cmd := []
  nz := []
  smp := []
  smpReady := .always
  rsp := []
  rspReady := .always

/-- The machine right after reset, with the default parameters (R5 to R7, R170). -/
def State.reset : State := State.resetOf Params.default

end Sys2Proof.Machine
end

