-- ==== Sys2Proof/Machine/Arith.lean ====
section
/-! DEFINITION. The rounding, clamping and sample-word primitives of 00_scope.md R10 to R12, and the
bit-by-bit search that finds a floor from exact comparisons. -/

namespace Sys2Proof.Machine

/-- `rne(x)`: the integer nearest to x, the even one when x is halfway (R11). -/
def rne (x : Rat) : Int :=
  if x - x.floor < 1 / 2 then x.floor
  else if 1 / 2 < x - x.floor then x.floor + 1
  else if x.floor % 2 = 0 then x.floor
  else x.floor + 1

/-- `clamp(x, lo, hi) = min(hi, max(lo, x))` (R12). -/
def clamp (x lo hi : Int) : Int := min hi (max lo x)

/-- `satS(x)`: an integer mapped onto the sample-word range (R12). -/
def satS (p : Params) (x : Int) : Int :=
  clamp x (-(2 ^ (p.outW - 1) : Nat)) ((2 ^ (p.outW - 1) : Nat) - 1)

/-- The sample word of an integer: its OUT_W-bit two's-complement pattern (30_encoding.md R83). -/
def sampleOfInt (p : Params) (x : Int) : Word := (BitVec.ofInt p.outW x).setWidth 32

/-- `sext_OUT_W(w)`: the integer a sample or noise word stands for (R10, R83, R84). -/
def sampleToInt (p : Params) (w : Word) : Int := (w.setWidth p.outW).toInt

/-- A phase word of PHASE_W bits: x mod 2^PHASE_W (R10, R14). -/
def phaseWord (p : Params) (x : Nat) : Word := BitVec.ofNat 32 (x % p.turn)

/-- Starting from acc, add the powers 2^(b-1), ..., 2^0, each where `ok` still holds. When `ok` is
downward closed and holds at acc, this is the greatest c in [acc, acc + 2^b) where it holds. -/
def greatest (ok : Nat → Bool) : (b acc : Nat) → Nat
  | 0, acc => acc
  | b + 1, acc => if ok (acc + 2 ^ b) then greatest ok b (acc + 2 ^ b) else greatest ok b acc

end Sys2Proof.Machine
end

