-- ==== Sys2Proof/Machine/Tuning.lean ====
section
/-! DEFINITION. TUNE, the tuning word (40_generate.md R101), in exact integer arithmetic. The real
number y of R101 is compared with a rational by raising both sides to the power 3072, which removes
the fractional octave: 2^(d/3072) becomes 2^d. -/

namespace Sys2Proof.Machine

/-- x^3072, by one cube and ten squarings (3072 = 3 * 2^10). -/
def pow3072 (x : Nat) : Nat :=
  Nat.repeat (fun y => y * y) 10 (x * x * x)

/-- The 3072nd power of 2y * 2^16 * SAMPLE_RATE, where the octaves d/3072 are not negative, and that
number times 2^(-d) otherwise: 2y * 2^16 * SAMPLE_RATE = 2 * FREQ * 2^PHASE_W * 2^(d/3072). -/
def twiceYPower (p : Params) (freq : Word) (d : Int) : Nat :=
  pow3072 (2 * freq.toNat * p.turn) * 2 ^ d.toNat

/-- The number `twiceYPower` is compared with to compare 2y with c. -/
def boundPower (p : Params) (d : Int) (c : Nat) : Nat :=
  pow3072 (c * 2 ^ 16 * p.sampleRate) * 2 ^ (-d).toNat

/-- floor(2y). Since FREQ < 2^32, PHASE_W ≤ 32 and d < 11 * 3072, it is below 2^60. -/
def twiceYFloor (p : Params) (freq : Word) (d : Int) : Nat :=
  greatest (fun c => decide (boundPower p d c ≤ twiceYPower p freq d)) 60 0

/-- 2y is the integer c. -/
def twiceYIs (p : Params) (freq : Word) (d : Int) (c : Nat) : Bool :=
  decide (boundPower p d c = twiceYPower p freq d)

/-- y rounded to nearest, ties to even, from f = floor(2y): y lies below f/2 + 1/2 when f is even,
and at or above the halfway point (f - 1)/2 + 1/2 when f is odd, at it exactly when 2y = f. -/
def yRounded (p : Params) (freq : Word) (d : Int) : Nat :=
  let f := twiceYFloor p freq d
  if f % 2 = 0 then f / 2
  else if twiceYIs p freq d f && (f / 2) % 2 == 0 then f / 2
  else f / 2 + 1

/-- `TUNE(FREQ, DETUNE) = round_to_nearest(y) mod M` (R101), bit-exact (DESIGN CHOICE, log entry 11). -/
def tune (p : Params) (freq : Word) (detune : BitVec 16) : Nat :=
  yRounded p freq detune.toInt % p.turn

end Sys2Proof.Machine
end

