-- ==== Sys2Proof/Machine/Operands.lean ====
section
/-! DEFINITION. The register address map (10_state.md R20), the access of each register, and the legal
part of an operand that each register takes (41_control.md R132 to R137). -/

namespace Sys2Proof.Machine

/-- k, the number of an overtone. -/
def Overtone.num : Overtone → Nat
  | .k2 => 2
  | .k3 => 3
  | .k4 => 4
  | .k5 => 5
  | .k6 => 6
  | .k7 => 7
  | .k8 => 8

/-- The overtones in increasing k. -/
def Overtone.all : List Overtone := [.k2, .k3, .k4, .k5, .k6, .k7, .k8]

/-- HPH[k]. -/
def HarmonicPhases.get (h : HarmonicPhases) : Overtone → Word
  | .k2 => h.h2
  | .k3 => h.h3
  | .k4 => h.h4
  | .k5 => h.h5
  | .k6 => h.h6
  | .k7 => h.h7
  | .k8 => h.h8

/-- HPH[k] <- v. -/
def HarmonicPhases.set (h : HarmonicPhases) (k : Overtone) (v : Word) : HarmonicPhases :=
  match k with
  | .k2 => { h with h2 := v }
  | .k3 => { h with h3 := v }
  | .k4 => { h with h4 := v }
  | .k5 => { h with h5 := v }
  | .k6 => { h with h6 := v }
  | .k7 => { h with h7 := v }
  | .k8 => { h with h8 := v }

/-- HPH[k] <- f k for every k = 2..8. -/
def HarmonicPhases.ofFn (f : Overtone → Word) : HarmonicPhases :=
  ⟨f .k2, f .k3, f .k4, f .k5, f .k6, f .k7, f .k8⟩

/-- The register at an address; none for the reserved addresses 0x10..0xFF (10_state.md R20, R29). -/
def regAt (addr : BitVec 8) : Option Reg :=
  match addr.toNat with
  | 0x00 => some .wave
  | 0x01 => some .freq
  | 0x02 => some .detune
  | 0x03 => some .harm
  | 0x04 => some .inc
  | 0x05 => some .phase
  | 0x06 => some (.hph .k2)
  | 0x07 => some (.hph .k3)
  | 0x08 => some (.hph .k4)
  | 0x09 => some (.hph .k5)
  | 0x0A => some (.hph .k6)
  | 0x0B => some (.hph .k7)
  | 0x0C => some (.hph .k8)
  | 0x0D => some .status
  | 0x0E => some .caps
  | 0x0F => some .srate
  | _ => none

/-- The address of a register; HPHk is at 0x04 + k (10_state.md R20). -/
def Reg.addr : Reg → BitVec 8
  | .wave => 0x00#8
  | .freq => 0x01#8
  | .detune => 0x02#8
  | .harm => 0x03#8
  | .inc => 0x04#8
  | .phase => 0x05#8
  | .hph k => BitVec.ofNat 8 (4 + k.num)
  | .status => 0x0D#8
  | .caps => 0x0E#8
  | .srate => 0x0F#8

/-- The read-only registers (41_control.md R139). -/
def Reg.readOnly : Reg → Bool
  | .inc => true
  | .caps => true
  | .srate => true
  | _ => false

/-- What WAVE takes of an operand: v up to 7, 7 above (R132). -/
def legalWave (v : Word) : BitVec 3 := if v.toNat ≤ 7 then BitVec.ofNat 3 v.toNat else 7#3

/-- What DETUNE takes: s32(v) clamped to the 16-bit range (R134). -/
def legalDetune (v : Word) : BitVec 16 := BitVec.ofInt 16 (clamp v.toInt (-32768) 32767)

/-- What HARM takes: min(v, 0x8000) (R135). -/
def legalHarm (v : Word) : BitVec 16 := BitVec.ofNat 16 (min v.toNat 0x8000)

/-- What a phase register takes: v mod 2^PHASE_W (R136, R137). -/
def legalPhase (p : Params) (v : Word) : Word := phaseWord p v.toNat

/-- INC, the derived register (10_state.md R27). -/
def State.inc (s : State) : Nat := tune s.params s.freq s.detune

/-- The waveform a code selects; an unknown code is sine (10_state.md R23, 40_generate.md R105). -/
def effectiveWave (code : BitVec 3) : Waveform :=
  match code.toNat with
  | 1 => .saw
  | 2 => .triangle
  | 3 => .pulse
  | 4 => .noise
  | _ => .sine

end Sys2Proof.Machine
end

