-- ==== Sys2Proof/Machine/Flags.lean ====
section
/-! DEFINITION. The STATUS register: how its fields read, are recorded and are cleared (10_state.md R28,
41_control.md R138, 60_exceptions.md R154, R155), and the two constant registers. -/

namespace Sys2Proof.Machine

/-- STATUS as it reads: {24'b0, ECODE[3:0], 3'b0, ERR} (41_control.md R141). -/
def statusWord (err : Bool) (ecode : BitVec 4) : Word :=
  0#24 ++ ecode ++ 0#3 ++ BitVec.ofBool err

/-- Record an error: ERR <- 1, ECODE <- its code (R154). -/
def recordError (e : ErrorCode) (s : State) : State := { s with err := true, ecode := e.code }

/-- `write_reg(0x0D STATUS, v)`: bit 0 clears ERR and ECODE; a write with v[0] = 0 changes nothing
(R138). -/
def clearStatus (v : Word) (s : State) : State :=
  if v.getLsbD 0 then { s with err := false, ecode := 0 } else s

/-- CAPS: PHASE_W, OUT_W, FRAC and the interface version, a byte each from bit 0 up (10_state.md R30). -/
def capsWord (p : Params) : Word :=
  BitVec.ofNat 8 interfaceVersion ++ BitVec.ofNat 8 p.frac ++ BitVec.ofNat 8 p.outW
    ++ BitVec.ofNat 8 p.phaseW

/-- SRATE: SAMPLE_RATE as a 32-bit unsigned integer (10_state.md R31). -/
def srateWord (p : Params) : Word := BitVec.ofNat 32 p.sampleRate

end Sys2Proof.Machine
end

