-- ==== Sys2Proof/Machine/Ops.lean ====
section
/-! DEFINITION. The named operations over the state: the pseudocode primitives of 00_scope.md R13 over
the streams, the registers' read and write, taking an error, the phase operations and reset. -/

namespace Sys2Proof.Machine

/-- The host takes one more word: its readiness afterwards, or none while it takes none (20_memory.md
R56). -/
def Readiness.take : Readiness → Option Readiness
  | .always => some .always
  | .credit 0 => none
  | .credit (n + 1) => some (.credit n)

/-- `respond(status, data)` as the last act of a command (20_memory.md R53): the response moves and no
command is in progress, or, while the host does not take it, the command is held (R56). -/
def respond (status : BitVec 4) (data : Word) (s : State) : State :=
  match s.rspReady.take with
  | some r => { s with rsp := s.rsp ++ [⟨status, data⟩], rspReady := r, busy := none }
  | none => { s with busy := some (.respond ⟨status, data⟩) }

/-- Taking an error (60_exceptions.md R154): ERR and ECODE are recorded and the response is
{c, 0}; no other state changes, and control moves nowhere. Nothing returns from an error: the next
command is taken as usual (R155). -/
def raise (e : ErrorCode) (s : State) : State := respond e.code 0 (recordError e s)

/-- `emit(w)`: the sample word moves on the sample stream; none while the host does not take it
(20_memory.md R54, R56). -/
def emit (w : Word) (s : State) : Option State :=
  match s.smpReady.take with
  | some r => some { s with smp := s.smp ++ [w], smpReady := r }
  | none => none

/-- The noise word that goes into a sample, taken from the stream when the effective waveform is noise
(20_memory.md R55); none while the stream is empty. Any other waveform takes none, and the word
given with it is not used. -/
def takeNoise (s : State) : Option (Word × State) :=
  match effectiveWave s.wave with
  | .noise =>
    match s.nz with
    | [] => none
    | w :: rest => some (w, { s with nz := rest })
  | _ => some (0, s)

/-- `read_reg` (41_control.md R141). -/
def readReg (r : Reg) (s : State) : Word :=
  match r with
  | .wave => s.wave.setWidth 32
  | .freq => s.freq
  | .detune => s.detune.signExtend 32
  | .harm => s.harm.setWidth 32
  | .inc => BitVec.ofNat 32 s.inc
  | .phase => s.phase
  | .hph k => s.hph.get k
  | .status => statusWord s.err s.ecode
  | .caps => capsWord s.params
  | .srate => srateWord s.params

/-- `write_reg` (41_control.md R132 to R138). The read-only registers hold no state to write; WRREG
raises E_RO for them before it comes here (R139). -/
def writeReg (r : Reg) (v : Word) (s : State) : State :=
  match r with
  | .wave => { s with wave := legalWave v }
  | .freq => { s with freq := v }
  | .detune => { s with detune := legalDetune v }
  | .harm => { s with harm := legalHarm v }
  | .phase => { s with phase := legalPhase s.params v }
  | .hph k => { s with hph := s.hph.set k (legalPhase s.params v) }
  | .status => clearStatus v s
  | .inc => s
  | .caps => s
  | .srate => s

/-- All phases 0 (41_control.md R142). -/
def resetPhases (s : State) : State := { s with phase := 0, hph := HarmonicPhases.zero }

/-- θ_i = (θ0 + i·INC) mod M (40_generate.md R103). -/
def State.phaseAt (s : State) (i : Nat) : Nat := (s.phase.toNat + i * s.inc) % s.params.turn

/-- h_{k,i} = (h0[k] + i·k·INC) mod M (40_generate.md R104). -/
def State.harmonicAt (s : State) (k : Overtone) (i : Nat) : Nat :=
  ((s.hph.get k).toNat + i * k.num * s.inc) % s.params.turn

/-- The phase update at the end of `GEN n` (40_generate.md R114). -/
def advancePhases (n : Nat) (s : State) : State :=
  { s with
    phase := BitVec.ofNat 32 (s.phaseAt n)
    hph := HarmonicPhases.ofFn fun k => BitVec.ofNat 32 (s.harmonicAt k n) }

/-- A reset of the running block (70_reset_and_hazards.md R170, R171): every register takes its reset
value and any command in progress is abandoned. Words that have moved stay moved; a sample or response
not yet moved goes with the command, and noise words not yet moved are lost. A command word that is
offered is not taken, so it is still offered afterwards. The request is met. DEDUCED and DESIGN CHOICE
(log entry 7). -/
def applyReset (s : State) : State :=
  { State.resetOf s.params with
    cmd := s.cmd
    smp := s.smp
    smpReady := s.smpReady
    rsp := s.rsp
    rspReady := s.rspReady }

end Sys2Proof.Machine
end

