-- ==== Sys2Proof/Machine/Control.lean ====
section
/-! DEFINITION. The meanings of NOP, WRREG, RDREG and RSTPH (41_control.md). -/

namespace Sys2Proof.Machine

/-- `NOP` (R130). -/
def execNop (s : State) : Host.Outcome State Fault Refusal := .next (respond 0 0 s)

/-- `WRREG reg, v` (R131): E_ADDR for a reserved address, E_RO for a read-only register, else the
register takes its legal part of v. -/
def execWrreg (addr : BitVec 8) (data : Word) (s : State) : Host.Outcome State Fault Refusal :=
  match regAt addr with
  | none => .next (raise .addr s)
  | some r =>
    if r.readOnly then .next (raise .ro s) else .next (respond 0 0 (writeReg r data s))

/-- `RDREG reg` (R140): E_ADDR for a reserved address, else the register's value. -/
def execRdreg (addr : BitVec 8) (s : State) : Host.Outcome State Fault Refusal :=
  match regAt addr with
  | none => .next (raise .addr s)
  | some r => .next (respond 0 (readReg r s) s)

/-- `RSTPH` (R142). -/
def execRstph (s : State) : Host.Outcome State Fault Refusal := .next (respond 0 0 (resetPhases s))

end Sys2Proof.Machine
end

