-- ==== Sys2Proof/Machine/Sine.lean ====
section
/-! DEFINITION. SINF, the quantised sine (40_generate.md R102), correctly rounded for every phase word
and every legal PHASE_W and FRAC, in exact arithmetic. The floor of 2 * 2^FRAC * sin is found from
exact comparisons of a cosine with a rational. A comparison is decided by doubling the angle,
cos 2α = 2 (cos α)^2 - 1, until the answer is plain: at the latest after PHASE_W doublings, when 2α is
a whole number of half turns. -/

namespace Sys2Proof.Machine

/-- cos(2π a / 2^b) compared with r, for 0 ≤ 2a ≤ 2^b. On [0, π] the cosine is compared through its
sign and its square. -/
def cosCmpExact : (b a : Nat) → (r : Rat) → Ordering
  | 0, _, r => compare 1 r
  | 1, a, r => compare (if a = 0 then 1 else -1) r
  | b + 2, a, r =>
    if a = 0 then compare 1 r
    else if 1 < r then .lt
    else if r < -1 then .gt
    else if a ≤ 2 ^ b then
      if r < 0 then .gt else cosCmpExact (b + 1) a (2 * r * r - 1)
    else if 0 ≤ r then .lt
    else (cosCmpExact (b + 1) (2 ^ (b + 1) - a) (2 * r * r - 1)).swap

/-- 1 in the fixed-point scale of `cosCmpFast`: 2^128. -/
def fastOne : Int := 340282366920938463463374607431768211456

/-- 2x^2 - 1 rounded down, in the scale of `fastOne`. -/
def doubleDown (x : Int) : Int := 2 * x * x / fastOne - fastOne

/-- 2x^2 - 1 rounded up, in the scale of `fastOne`. -/
def doubleUp (x : Int) : Int := -(-(2 * x * x) / fastOne) - fastOne

/-- The integer v compared with a number known only to lie in [lo, hi]. -/
def cmpInterval (v lo hi : Int) : Option Ordering :=
  if hi < v then some .gt
  else if v < lo then some .lt
  else if lo = hi then some .eq
  else none

/-- `cosCmpExact` for an r known to lie in [lo, hi] (in the scale of `fastOne`), with numbers of
bounded size; none where that does not decide the answer. -/
def cosCmpFast : (b a : Nat) → (lo hi : Int) → Option Ordering
  | 0, _, lo, hi => cmpInterval fastOne lo hi
  | 1, a, lo, hi => cmpInterval (if a = 0 then fastOne else -fastOne) lo hi
  | b + 2, a, lo, hi =>
    if a = 0 then cmpInterval fastOne lo hi
    else if fastOne < lo then some .lt
    else if hi < -fastOne then some .gt
    else if a ≤ 2 ^ b then
      if hi < 0 then some .gt
      else if lo < 0 then none
      else cosCmpFast (b + 1) a (doubleDown lo) (doubleUp hi)
    else if 0 ≤ lo then some .lt
    else if 0 ≤ hi then none
    else (cosCmpFast (b + 1) (2 ^ (b + 1) - a) (doubleDown hi) (doubleUp lo)).map Ordering.swap

/-- cos(2π a / 2^b) compared with c / 2^e, for 0 ≤ 2a ≤ 2^b and e ≤ 128: exact in every case. -/
def cosCmp (b a c e : Nat) : Ordering :=
  match cosCmpFast b a (c * 2 ^ (128 - e) : Nat) (c * 2 ^ (128 - e) : Nat) with
  | some o => o
  | none => cosCmpExact b a (mkRat c (2 ^ e))

/-- c ≤ 2 * 2^FRAC * sin(2π φ / M), for φ in the first quarter turn: sin φ = cos(quarter - φ). -/
def sinAtLeast (p : Params) (φ c : Nat) : Bool :=
  cosCmp p.phaseW (p.quarterTurn - φ) c (p.frac + 1) != .lt

/-- 2^64 * (1 - x^2/(2k(2k+1)) * (1 - x^2/((2k+2)(2k+3)) * ...)), with x2 = 2^64 * x^2 and `terms`
terms: the sine's series divided by x. Only a guess is made from it. -/
def sinSeries (x2 : Nat) : (terms k : Nat) → Nat
  | 0, _ => 2 ^ 64
  | t + 1, k => 2 ^ 64 - x2 * sinSeries x2 t (k + 1) / 2 ^ 64 / (2 * k * (2 * k + 1))

/-- A guess at floor(2 * 2^FRAC * sin(2π φ / M)). Nothing rests on it but speed: `sinFloor` checks it.
28976077338029890953 is 2^64 * π/2. -/
def sinGuess (p : Params) (φ : Nat) : Nat :=
  let x := φ * 28976077338029890953 / p.quarterTurn
  x * sinSeries (x * x / 2 ^ 64) 11 1 / 2 ^ 64 / 2 ^ (63 - p.frac)

/-- floor(2 * 2^FRAC * sin(2π φ / M)), for φ in the first quarter turn. -/
def sinFloor (p : Params) (φ : Nat) : Nat :=
  let g := sinGuess p φ
  if sinAtLeast p φ g && !sinAtLeast p φ (g + 1) then g
  else greatest (sinAtLeast p φ) (p.frac + 2) 0

/-- 2^FRAC * sin(2π φ / M) rounded to nearest, for φ in the first quarter turn; it is never a tie
(R102). -/
def sinQuarter (p : Params) (φ : Nat) : Nat := (sinFloor p φ + 1) / 2

/-- `SINF(θ) = rn(2^FRAC · sin(2π·θ/M))` for a phase word θ in [0, M) (R102), by the sine's symmetry
in the four quarter turns. Bit-exact (DESIGN CHOICE, log entry 11). -/
def sinf (p : Params) (θ : Nat) : Int :=
  let q := p.quarterTurn
  if θ ≤ q then sinQuarter p θ
  else if θ ≤ 2 * q then sinQuarter p (2 * q - θ)
  else if θ ≤ 3 * q then -sinQuarter p (θ - 2 * q)
  else -sinQuarter p (4 * q - θ)

end Sys2Proof.Machine
end

