-- ==== Sys2Proof/Machine/Wave.lean ====
section
/-! DEFINITION. One sample: the base waveforms, the overtone sum and the sample word (40_generate.md
R105 to R112), in exact rational arithmetic with one rounding. -/

namespace Sys2Proof.Machine

/-- Base value of the saw at θ (R107): 2u up to the half turn and 2u - 2 above it, with u = θ/M. -/
def sawValue (p : Params) (θ : Nat) : Rat :=
  if θ ≤ p.halfTurn then 2 * θ / p.turn else 2 * θ / p.turn - 2

/-- Base value of the triangle at θ (R108). -/
def triangleValue (p : Params) (θ : Nat) : Rat :=
  if θ ≤ p.halfTurn then 4 * θ / p.turn - 1 else 3 - 4 * θ / p.turn

/-- Base value of the pulse at θ (R109). -/
def pulseValue (p : Params) (θ : Nat) : Rat := if θ < p.halfTurn then 1 else -1

/-- Base value of the sine at θ (R106). -/
def sineValue (p : Params) (θ : Nat) : Rat := sinf p θ / p.unit

/-- Base value of the noise for one noise word (R110). -/
def noiseValue (p : Params) (nz : Word) : Rat :=
  clamp (sampleToInt p nz) (-p.unit) p.unit / p.unit

/-- b_i: the base value for a waveform, a phase and a noise word (R105 to R110). -/
def baseValue (p : Params) (w : Waveform) (θ : Nat) (nz : Word) : Rat :=
  match w with
  | .sine => sineValue p θ
  | .saw => sawValue p θ
  | .triangle => triangleValue p θ
  | .pulse => pulseValue p θ
  | .noise => noiseValue p nz

/-- A = HARM / 2^15 (10_state.md R26). -/
def harmonicAmount (harm : BitVec 16) : Rat := harm.toNat / 2 ^ 15

/-- H_i: the sum over k of (A/k) · SINF(h_k) / 2^FRAC, 0 when HARM = 0 (R111, R97). -/
def overtoneSum (p : Params) (harm : BitVec 16) (h : Overtone → Nat) : Rat :=
  if harm = 0 then 0
  else (Overtone.all.map fun k => harmonicAmount harm / k.num * sineValue p (h k)).sum

/-- s_i = satS(rne(2^FRAC · (b_i + H_i))) as an integer (R112). -/
def sampleValue (p : Params) (b h : Rat) : Int := satS p (rne (p.unit * (b + h)))

/-- The sample word s_i of a `GEN` that runs in state s, with noise word nz (R103 to R112). -/
def sampleWord (s : State) (i : Nat) (nz : Word) : Word :=
  sampleOfInt s.params
    (sampleValue s.params
      (baseValue s.params (effectiveWave s.wave) (s.phaseAt i) nz)
      (overtoneSum s.params s.harm fun k => s.harmonicAt k i))

end Sys2Proof.Machine
end

