-- ==== Sys2Proof/Machine/Generate.lean ====
section
/-! DEFINITION. The meaning of GEN (40_generate.md R113 to R115), with its holds. -/

namespace Sys2Proof.Machine

/-- The last k samples of a `GEN n`, from sample n - k on, then the phase update and the response. At
each sample (R113): take the noise word, compute, emit. Where the stream has no noise word, or the host
does not take the sample, the command is held at that point (20_memory.md R56). -/
def genFrom (n : Word) : (k : Nat) → State → State
  | 0, s => respond 0 0 (advancePhases n.toNat s)
  | k + 1, s =>
    let i := n.toNat - (k + 1)
    match takeNoise s with
    | none => { s with busy := some (.gen n i none) }
    | some (nz, s₁) =>
      match emit (sampleWord s₁ i nz) s₁ with
      | none => { s₁ with busy := some (.gen n i (some (sampleWord s₁ i nz))) }
      | some s₂ => genFrom n k s₂

/-- `GEN n` (R115). No value of any register and no n makes it fail (R99). -/
def execGen (n : Word) (s : State) : Host.Outcome State Fault Refusal :=
  .next (genFrom n n.toNat s)

end Sys2Proof.Machine
end

