-- ==== Sys2Proof/Machine/Dispatch.lean ====
section
/-! DEFINITION. One arm per command. -/

namespace Sys2Proof.Machine

def exec (i : Instr) (s : State) : Host.Outcome State Fault Refusal :=
  match i with
  | .nop => Sys2Proof.Machine.execNop s
  | .wrreg addr data => Sys2Proof.Machine.execWrreg addr data s
  | .rdreg addr => Sys2Proof.Machine.execRdreg addr s
  | .gen n => Sys2Proof.Machine.execGen n s
  | .rstph => Sys2Proof.Machine.execRstph s

end Sys2Proof.Machine
end

