-- ==== Sys2Proof/Machine/Resume.lean ====
section
/-! DEFINITION. What a step does outside a command's execution: a rejected word, and going on with a
held command (20_memory.md R56). -/

namespace Sys2Proof.Machine

/-- Go on with the command in progress from where it is held. Where what it waits for has not come,
the state is unchanged. -/
def resume (b : Busy) (s : State) : State :=
  match b with
  | .respond r => respond r.status r.data s
  | .gen n i none => genFrom n (n.toNat - i) s
  | .gen n i (some w) =>
    match emit w s with
    | none => s
    | some s₁ => genFrom n (n.toNat - (i + 1)) s₁

/-- The next command word is removed from the command stream (20_memory.md R52). -/
def takeCmd (rest : List CmdWord) (s : State) : State := { s with cmd := rest }

/-- The command words the host offers, with w in front, and nothing that keeps the next step from
taking it: no command in progress and no reset request. -/
def offerFirst (w : CmdWord) (s : State) : State :=
  { s with cmd := w :: s.cmd, busy := none, rst := false }

end Sys2Proof.Machine
end

