-- ==== Sys2Proof/Machine/Step.lean ====
section
/-! DEFINITION. One step of the machine: a reset request is met first (70_reset_and_hazards.md R170), a
command in progress goes on before a further one is taken (20_memory.md R52), and otherwise the next
command word is taken and executed or rejected, as one atomic step (00_scope.md R2; log entries 9, 12 and 15). -/

namespace Sys2Proof.Machine

def step (s : State) : Host.Outcome State Fault Refusal :=
  if s.rst then .next (applyReset s)
  else
    match s.busy with
    | some b => .next (resume b s)
    | none =>
      match s.cmd with
      | [] => .next s
      | w :: rest =>
        match decode w with
        | .ok i => exec i (takeCmd rest s)
        | .error e => .next (raise e (takeCmd rest s))

/-- s with the command word w (bits above nbits 0) as the next the step takes (log entry 6). -/
def State.withFetchWord (s : State) (nbits w : Nat) : State :=
  offerFirst (BitVec.ofNat 64 (w % 2 ^ nbits)) s

end Sys2Proof.Machine
end

