-- ==== Sys2Proof/Machine/Assembler.lean ====
section
/-! DEFINITION. The assembler of a command stream and its pseudo-commands (30_encoding.md R85, R86), from
one line of text to a command. Where R85 leaves the text form open: DESIGN CHOICE (log entry 13). -/

namespace Sys2Proof.Machine

/-- One line of assembly, read but not yet checked for range. -/
inductive AsmLine where
  | nop
  | wrreg (addr : Nat) (value : Int)
  | rdreg (addr : Nat)
  | gen (n : Int)
  | rstph
  | setWave (code : Int)
  | setFreq (hz : Rat)
  | setDetune (semitones : Rat)
  | setHarm (a : Rat)
  | clrErr
  | sync
  deriving DecidableEq, Repr

/-- `WRREG r, v` with v mod 2^32, rejected where the address does not fit 8 bits, or the value, if
negative, 32-bit two's complement, and otherwise 32 bits (R85). -/
def asmWrite (addr : Nat) (v : Int) : Option Instr :=
  if addr < 256 ∧ -(2 ^ 31) ≤ v ∧ v < 2 ^ 32 then
    some (.wrreg (BitVec.ofNat 8 addr) (BitVec.ofInt 32 v))
  else none

/-- The command of a line, with the pseudo-commands expanded (R85, R86); none where an operand does not
fit. -/
def assemble : AsmLine → Option Instr
  | .nop => some .nop
  | .wrreg addr v => asmWrite addr v
  | .rdreg addr => if addr < 256 then some (.rdreg (BitVec.ofNat 8 addr)) else none
  | .gen n => if 0 ≤ n ∧ n < 2 ^ 32 then some (.gen (BitVec.ofInt 32 n)) else none
  | .rstph => some .rstph
  | .setWave code => asmWrite 0x00 code
  | .setFreq hz =>
    if 0 ≤ hz ∧ hz ≤ 65536 - 1 / 2 ^ 16 then asmWrite 0x01 (rne (hz * 2 ^ 16)) else none
  | .setDetune st => some (.wrreg 0x02#8 (BitVec.ofInt 32 (rne (st * 256))))
  | .setHarm a => if 0 ≤ a ∧ a ≤ 1 then asmWrite 0x03 (rne (a * 2 ^ 15)) else none
  | .clrErr => asmWrite 0x0D 1
  | .sync => some .rstph

/-- The register names of R85 and their addresses. -/
def regNames : List (String × Nat) :=
  [("WAVE", 0x00), ("FREQ", 0x01), ("DETUNE", 0x02), ("HARM", 0x03), ("INC", 0x04), ("PHASE", 0x05),
   ("HPH2", 0x06), ("HPH3", 0x07), ("HPH4", 0x08), ("HPH5", 0x09), ("HPH6", 0x0A), ("HPH7", 0x0B),
   ("HPH8", 0x0C), ("STATUS", 0x0D), ("CAPS", 0x0E), ("SRATE", 0x0F)]

/-- The waveform names of R85, which may stand for a value. -/
def waveNames : List (String × Int) :=
  [("SINE", 0), ("SAW", 1), ("TRI", 2), ("PULSE", 3), ("NOISE", 4)]

/-- The entry of a name in a table. -/
def lookupName {α : Type} (name : List Char) : List (String × α) → Option α
  | [] => none
  | (n, v) :: rest => if n.toList = name then some v else lookupName name rest

/-- The value of a digit in base 16 or less. -/
def digitValue (c : Char) : Option Nat :=
  if '0' ≤ c ∧ c ≤ '9' then some (c.toNat - '0'.toNat)
  else if 'a' ≤ c ∧ c ≤ 'f' then some (c.toNat - 'a'.toNat + 10)
  else if 'A' ≤ c ∧ c ≤ 'F' then some (c.toNat - 'A'.toNat + 10)
  else none

/-- The digits of a number read onto acc; `_` separates groups (00_scope.md R9). -/
def digitsFrom (base : Nat) : (acc : Nat) → List Char → Option Nat
  | acc, [] => some acc
  | acc, '_' :: cs => digitsFrom base acc cs
  | acc, c :: cs =>
    match digitValue c with
    | some d => if d < base then digitsFrom base (acc * base + d) cs else none
    | none => none

/-- A number: at least one character, and all of them digits or separators. -/
def parseDigits (base : Nat) : List Char → Option Nat
  | [] => none
  | c :: cs => if c = '_' then none else digitsFrom base 0 (c :: cs)

/-- An integer: decimal, 0x hexadecimal, or negative decimal (R85). -/
def parseInt : List Char → Option Int
  | '-' :: cs => (parseDigits 10 cs).map fun n => -(n : Int)
  | '0' :: 'x' :: cs => (parseDigits 16 cs).map fun n => (n : Int)
  | cs => (parseDigits 10 cs).map fun n => (n : Int)

/-- A decimal without a sign: digits, and after a point more digits. -/
def parseDecimalAbs (cs : List Char) : Option Rat :=
  let whole := cs.takeWhile (· != '.')
  match cs.drop whole.length with
  | [] => (parseDigits 10 whole).map fun n => (n : Rat)
  | _ :: frac =>
    match parseDigits 10 whole, parseDigits 10 frac with
    | some n, some f => some (n + (f : Rat) / 10 ^ (frac.filter (· != '_')).length)
    | _, _ => none

/-- A decimal, negative if it begins with a minus sign. -/
def parseDecimal : List Char → Option Rat
  | '-' :: cs => (parseDecimalAbs cs).map fun r => -r
  | cs => parseDecimalAbs cs

/-- A register operand: a name, or @ and an address (R85). -/
def parseReg : List Char → Option Nat
  | '@' :: cs => (parseInt cs).bind fun v => if 0 ≤ v then some v.toNat else none
  | cs => lookupName cs regNames

/-- A value operand: a waveform name or an integer (R85). -/
def parseValue (cs : List Char) : Option Int :=
  match lookupName cs waveNames with
  | some v => some v
  | none => parseInt cs

/-- The tokens of a line, read onto the current token: blanks separate, a comma is a token of its own,
and `;` starts a comment (R85). -/
def tokensFrom : (cur : List Char) → List Char → List (List Char)
  | cur, [] => if cur.isEmpty then [] else [cur.reverse]
  | cur, c :: cs =>
    let done := if cur.isEmpty then [] else [cur.reverse]
    if c = ';' then done
    else if c = ',' then done ++ [[',']] ++ tokensFrom [] cs
    else if c.isWhitespace then done ++ tokensFrom [] cs
    else tokensFrom (c :: cur) cs

/-- A command with no operand. -/
def bareNames : List (String × AsmLine) :=
  [("NOP", .nop), ("RSTPH", .rstph), ("CLRERR", .clrErr), ("SYNC", .sync)]

/-- The commands with one operand, and how it is read. -/
def parseUnary (name arg : List Char) : Option AsmLine :=
  if name = "RDREG".toList then (parseReg arg).map .rdreg
  else if name = "GEN".toList then (parseInt arg).map .gen
  else if name = "SETWAVE".toList then (lookupName arg waveNames).map .setWave
  else if name = "SETFREQ".toList then (parseDecimal arg).map .setFreq
  else if name = "SETDETUNE".toList then (parseDecimal arg).map .setDetune
  else if name = "SETHARM".toList then (parseDecimal arg).map .setHarm
  else none

/-- What one line of text stands for; `blank` is no command (DESIGN CHOICE, log entry 13). -/
inductive AsmResult where
  | blank
  | command (i : Instr)
  | rejected
  deriving DecidableEq, Repr

/-- The result for a line whose reading is known. -/
def AsmResult.ofLine (l : Option AsmLine) : AsmResult :=
  match l.bind assemble with
  | some i => .command i
  | none => .rejected

/-- One line of assembly text (R85, R86). DESIGN CHOICE (log entry 13): a line with no command on it, blank or
with only a comment, stands for no command and is not rejected. -/
def assembleLine (line : String) : AsmResult :=
  match tokensFrom [] line.toList with
  | [] => .blank
  | [name] => .ofLine (lookupName name bareNames)
  | [name, arg] => .ofLine (parseUnary name arg)
  | [name, reg, comma, value] =>
    if name = "WRREG".toList ∧ comma = [','] then
      match parseReg reg, parseValue value with
      | some a, some v => .ofLine (some (.wrreg a v))
      | _, _ => .rejected
    else .rejected
  | _ => .rejected

/-- The command words of a program text, one command a line (R85). DESIGN CHOICE (log entry 13): a blank line is
skipped, and a rejected line rejects the program. -/
def assembleProgram : List String → Option (List CmdWord)
  | [] => some []
  | line :: rest =>
    match assembleLine line with
    | .blank => assembleProgram rest
    | .command i => (assembleProgram rest).map (encode i :: ·)
    | .rejected => none

end Sys2Proof.Machine
end

