-- ==== Sys2Proof/Machine/HostPort.lean ====
section
/-! DEFINITION. What the outside world can do to an instance between two steps: the host's and the noise
source's side of the streams and of reset (20_memory.md R51 to R56, 70_reset_and_hazards.md R170, R175). -/

namespace Sys2Proof.Machine

/-- The host offers one more command word (R52). -/
def offerCommand (w : CmdWord) (s : State) : State := { s with cmd := s.cmd ++ [w] }

/-- The noise source offers more noise words (R55). -/
def offerNoise (ws : List Word) (s : State) : State := { s with nz := s.nz ++ ws }

/-- The host's readiness to take samples changes (R56). -/
def setSampleReady (r : Readiness) (s : State) : State := { s with smpReady := r }

/-- The host's readiness to take responses changes (R56). -/
def setResponseReady (r : Readiness) (s : State) : State := { s with rspReady := r }

/-- The host asks for a reset, rst_n = 0 (R170); the next step makes it. -/
def requestReset (s : State) : State := { s with rst := true }

end Sys2Proof.Machine
end

