-- ==== Sys2Proof/Machine/Transport.lean ====
section
/-! DEFINITION. The words of the output and noise streams as one number and on a byte-wide transport
(20_memory.md R57, 30_encoding.md R82 to R84). -/

namespace Sys2Proof.Machine

/-- A response carried as one word: {status[3:0], data[31:0]} in bits [35:0] (R82). -/
def Response.pack (r : Response) : BitVec 36 := r.status ++ r.data

/-- The response that a 36-bit word carries (R82). -/
def Response.unpack (w : BitVec 36) : Response := ⟨w.extractLsb' 32 4, w.extractLsb' 0 32⟩

/-- A response on a byte-wide transport, least significant byte first (R57). DEDUCED (log entry 8): 36
bits fill five bytes, the bits above them 0. -/
def responseBytes (r : Response) : List Byte := bytesLE 5 r.pack.toNat

/-- The bytes that a word of OUT_W bits fills (DEDUCED, log entry 8). -/
def sampleByteCount (p : Params) : Nat := (p.outW + 7) / 8

/-- A sample or noise word on a byte-wide transport, least significant byte first (R57), the bits above OUT_W
0 (DEDUCED, log entry 8). -/
def sampleBytes (p : Params) (w : Word) : List Byte := bytesLE (sampleByteCount p) w.toNat

/-- The first noise word of a byte sequence, its low OUT_W bits, and the rest (R57, R84). DESIGN CHOICE (log
entry 8): where fewer bytes are there than a noise word fills, there is no noise word yet. -/
def noiseOfBytes (p : Params) (bs : List Byte) : Option (Word × List Byte) :=
  if bs.length < sampleByteCount p then none
  else some (BitVec.ofNat 32 (ofBytesLE (bs.take (sampleByteCount p)) % 2 ^ p.outW),
    bs.drop (sampleByteCount p))

end Sys2Proof.Machine
end

