-- ==== Sys2Proof/Safety.lean ====
section
/-! DEFINITION. What claims say of states: the legal states, where a run has finished, and where it is
held. -/

namespace Sys2Proof.Machine

/-- A response the block can send (30_encoding.md R82): codes 5..15 are never produced, and the data of
an error is 0. -/
def Response.Legal (r : Response) : Prop := r.status.toNat ≤ 4 ∧ (r.status ≠ 0 → r.data = 0)

/-- A word of OUT_W bits. -/
def SampleFits (p : Params) (w : Word) : Prop := w.toNat < 2 ^ p.outW

/-- A command in progress that a held command can be in: a sample of the command is still to come, or
a legal response is. -/
def Busy.Legal (p : Params) : Busy → Prop
  | .gen n i pending => i < n.toNat ∧ ∀ w ∈ pending, SampleFits p w
  | .respond r => r.Legal

/-- The legal states: every register in its range (10_state.md R20 to R28), and legal words on the
output streams and in the command in progress. -/
structure State.Legal (s : State) : Prop where
  /-- R21. -/
  phase_fits : s.phase.toNat < s.params.turn
  /-- R22. -/
  hph_fits : ∀ k, (s.hph.get k).toNat < s.params.turn
  /-- R26. -/
  harm_range : s.harm.toNat ≤ 0x8000
  /-- R28: ECODE is 0 exactly when ERR is. -/
  err_iff : s.err = true ↔ s.ecode ≠ 0
  /-- R151. -/
  ecode_defined : s.ecode.toNat ≤ 4
  busy_legal : ∀ b ∈ s.busy, b.Legal s.params
  smp_fit : ∀ w ∈ s.smp, SampleFits s.params w
  rsp_legal : ∀ r ∈ s.rsp, r.Legal

/-- Harmonic coherence (40_generate.md R117): HPH[k] ≡ k·PHASE (mod M) for every k. -/
def State.Coherent (s : State) : Prop :=
  ∀ k, (s.hph.get k).toNat ≡ k.num * s.phase.toNat [MOD s.params.turn]

/-- A run may end here (70_reset_and_hazards.md R175): no command is in progress, so the host has taken
every sample and response, and no command word is left. -/
def State.Finished (s : State) : Prop := s.busy = none ∧ s.cmd = []

/-- The command in progress waits and this step does not move it (20_memory.md R56). A run that stays
here is stuck, not finished. -/
def State.Held (s : State) : Prop := s.busy ≠ none ∧ s.rst = false ∧ step s = .next s

end Sys2Proof.Machine
end

