-- ==== Sys2Proof/Certificates/Slice0/Obligations.lean ====
section
/-! DEFINITION. The statements about the model. `answered` is the state in which a command's response has
moved; every statement that uses it names the host's readiness that this takes. -/

open Sys2Proof Sys2Proof.Machine

namespace Sys2Proof.Claims

/-- s with the response {status, data} moved, the host's readiness then being q, and no command in
progress. -/
def answered (s : State) (q : Readiness) (status : BitVec 4) (data : Word) : State :=
  { s with rsp := s.rsp ++ [⟨status, data⟩], rspReady := q, busy := none }

/-- s with its command held for the response {status, data}. -/
def waiting (s : State) (status : BitVec 4) (data : Word) : State :=
  { s with busy := some (.respond ⟨status, data⟩) }

/-- The table of 41_control.md R141: the value that each register address reads in state s. -/
def registerTable (s : State) : List (BitVec 8 × Word) :=
  [(0x00, BitVec.ofNat 32 s.wave.toNat),
   (0x01, s.freq),
   (0x02, BitVec.ofInt 32 s.detune.toInt),
   (0x03, BitVec.ofNat 32 s.harm.toNat),
   (0x04, BitVec.ofNat 32 (tune s.params s.freq s.detune)),
   (0x05, s.phase),
   (0x06, s.hph.h2), (0x07, s.hph.h3), (0x08, s.hph.h4), (0x09, s.hph.h5), (0x0A, s.hph.h6),
   (0x0B, s.hph.h7), (0x0C, s.hph.h8),
   (0x0D, BitVec.ofNat 32 (2 ^ 4 * s.ecode.toNat + s.err.toNat)),
   (0x0E, BitVec.ofNat 32 (s.params.phaseW + 2 ^ 8 * s.params.outW + 2 ^ 16 * s.params.frac + 2 ^ 24)),
   (0x0F, BitVec.ofNat 32 s.params.sampleRate)]

/-- The table of 70_reset_and_hazards.md R170, in s. -/
def InResetState (s : State) : Prop :=
  s.wave = 0 ∧ s.freq = 0 ∧ s.detune = 0 ∧ s.harm = 0 ∧ s.phase = 0 ∧ (∀ k, s.hph.get k = 0) ∧
    s.err = false ∧ s.ecode = 0 ∧ s.inc = 0 ∧
    (readReg .caps s).toNat = s.params.phaseW + 2 ^ 8 * s.params.outW + 2 ^ 16 * s.params.frac + 2 ^ 24 ∧
    (readReg .srate s).toNat = s.params.sampleRate ∧ s.busy = none

/-- The operand registers, the phases and the parameters of two states agree: all that a sample is
computed from, except noise. -/
def SameTone (s t : State) : Prop :=
  t.params = s.params ∧ t.wave = s.wave ∧ t.freq = s.freq ∧ t.detune = s.detune ∧ t.harm = s.harm ∧
    t.phase = s.phase ∧ t.hph = s.hph

/-- The streams' inputs, the command stream, the reset request and the parameters of two states agree. -/
def SameInputs (s t : State) : Prop :=
  t.params = s.params ∧ t.cmd = s.cmd ∧ t.rst = s.rst ∧ t.nz = s.nz ∧ t.smp = s.smp ∧
    t.smpReady = s.smpReady

/-- The word of section 3 of 95_test_vectors.md that program line i of P1 sends, and others of V-RD and
V-ERR, with what each stands for. -/
def writtenOutWords : List (CmdWord × Except ErrorCode Instr) :=
  [(0x0000000000000000, .ok .nop),
   (0x0101000001B80000, .ok (.wrreg 0x01 0x01B80000)),
   (0x010D000000000001, .ok (.wrreg 0x0D 0x00000001)),
   (0x020E000000000000, .ok (.rdreg 0x0E)),
   (0x0240000000000000, .ok (.rdreg 0x40)),
   (0x0300000000000004, .ok (.gen 4)),
   (0x0400000000000000, .ok .rstph),
   (0x0720000100000005, .error .opcode),
   (0x0101800000000005, .error .rsvd),
   (0x0001000000000000, .error .rsvd)]

/-- The integer nearest to a real number, the even one at a tie: the `round` of R93, with the tie that
R107 decides. -/
noncomputable def roundHalfEven (x : ℝ) : Int :=
  if Int.fract x < 1 / 2 then ⌊x⌋
  else if 1 / 2 < Int.fract x then ⌊x⌋ + 1
  else if Even ⌊x⌋ then ⌊x⌋
  else ⌊x⌋ + 1

/-- R93 at t: saw = 2·(t/2π − round(t/2π)). -/
noncomputable def realSaw (t : ℝ) : ℝ := 2 * (t / (2 * Real.pi) - roundHalfEven (t / (2 * Real.pi)))

/-- The source's base waveforms in real arithmetic at the phase word θ (40_generate.md R92 to R96), with t
= 2π θ / M; for noise, the noise word's value, clamped to [−1, 1]. -/
noncomputable def realBase (p : Params) (w : Waveform) (θ : Nat) (nz : Word) : ℝ :=
  let t : ℝ := 2 * Real.pi * θ / 2 ^ p.phaseW
  match w with
  | .sine => Real.sin t
  | .saw => realSaw t
  | .triangle => 2 * |realSaw t| - 1
  | .pulse => if 2 * Real.pi * Int.fract (t / (2 * Real.pi)) < Real.pi then 1 else -1
  | .noise => min 1 (max (-1) (((nz.setWidth p.outW).toInt : ℝ) / 2 ^ p.frac))

/-- The host takes at least m more words. -/
def TakesAtLeast (m : Nat) (r : Readiness) : Prop := r = .always ∨ ∃ c, r = .credit (c + m)

/-- The host's readiness r with m words more. -/
def moreBy (m : Nat) : Readiness → Readiness
  | .always => .always
  | .credit c => .credit (m + c)

/-- ERR and ECODE of t are what the command i leaves when it runs in s: an error sets them, a STATUS write
with bit 0 set clears them, and nothing else changes them. -/
def StatusAfter (i : Instr) (s t : State) : Prop :=
  (i.wellFormed = false → t.err = true ∧ (t.ecode = 3 ∨ t.ecode = 4)) ∧
  (i.wellFormed = true → (∃ v : Word, i = .wrreg 0x0D v ∧ v.toNat % 2 = 1) → t.err = false ∧ t.ecode = 0) ∧
  (i.wellFormed = true → ¬(∃ v : Word, i = .wrreg 0x0D v ∧ v.toNat % 2 = 1) →
    t.err = s.err ∧ t.ecode = s.ecode)

/-- The source's overtone sum in real arithmetic at the phase words h (R97). -/
noncomputable def realOvertones (p : Params) (harm : BitVec 16) (h : Overtone → Nat) : ℝ :=
  (Overtone.all.map fun k =>
    (harm.toNat : ℝ) / 2 ^ 15 / k.num * Real.sin (2 * Real.pi * h k / 2 ^ p.phaseW)).sum

end Sys2Proof.Claims

open Sys2Proof.Claims

/-! ### Encoding -/

/-- Every command survives encoding and decoding, and the host's numbering of a word reads the same
command. -/
def Obligations.DecodeOfEncodeIsTheCommand : Prop :=
  ∀ i : Instr, decode (encode i) = .ok i ∧ decodeTableWord 64 (encode i).toNat = some i

/-- Each word has one meaning: a word that decodes to a command is that command's word. -/
def Obligations.DecodedWordIsTheCommandsWord : Prop :=
  ∀ (w : CmdWord) (i : Instr), decode w = .ok i → encode i = w

/-- The match and mask rows of R76: a word decodes to a command of a row exactly when it spells the row,
at most one row matches a word, and a word that no row matches is rejected. -/
def Obligations.WordsDecodeByTheOpcodeTable : Prop :=
  ∀ w : CmdWord,
    (∀ i, decode w = .ok i → i.row ∈ opcodeTable ∧ w &&& i.row.mask = i.row.pattern) ∧
    (∀ r ∈ opcodeTable, w &&& r.mask = r.pattern → ∃ i, decode w = .ok i ∧ i.row = r) ∧
    (∀ r ∈ opcodeTable, ∀ r' ∈ opcodeTable,
      w &&& r.mask = r.pattern → w &&& r'.mask = r'.pattern → r = r') ∧
    ((∀ r ∈ opcodeTable, w &&& r.mask ≠ r.pattern) → ∃ e, decode w = .error e)

/-- Words written out from the encodings decode to the commands, or the errors, they stand for. -/
def Obligations.WrittenOutWordsDecode : Prop :=
  ∀ x ∈ writtenOutWords, decode x.1 = x.2

/-- R57 for a command word: its eight bytes, least significant first, carry it, and what follows them is
left. -/
def Obligations.CommandBytesAreLittleEndian : Prop :=
  ∀ (w : CmdWord) (rest : List Byte),
    decodeBytes (cmdBytes w ++ rest) = some (decode w, rest) ∧
    cmdBytes w = (List.range 8).map fun j => BitVec.ofNat 8 (w.toNat / 2 ^ (8 * j))

/-- R82: a response carried as one word has status in bits [35:32] and data in bits [31:0]. -/
def Obligations.ResponseWordLayout : Prop :=
  ∀ r : Response, r.pack.toNat = r.status.toNat * 2 ^ 32 + r.data.toNat ∧ Response.unpack r.pack = r

/-! ### Errors -/

/-- R77 to R79: with no command in progress and no reset request, the next word gets the error of the
first failing check, in the order illegal OP, reserved field, reserved address, read-only register. -/
def Obligations.FirstFailingCheckDecidesTheError : Prop :=
  ∀ (s : State) (w : CmdWord) (rest : List CmdWord),
    s.rst = false → s.busy = none → s.cmd = w :: rest →
    (5 ≤ (opField w).toNat → step s = .next (raise .opcode { s with cmd := rest })) ∧
    ((opField w).toNat < 5 →
      (rsvdField w ≠ 0 ∨
        ((opField w = 0 ∨ opField w = 3 ∨ opField w = 4) ∧ addrField w ≠ 0) ∨
        ((opField w = 0 ∨ opField w = 2 ∨ opField w = 4) ∧ dataField w ≠ 0)) →
      step s = .next (raise .rsvd { s with cmd := rest })) ∧
    (((opField w = 1 ∧ rsvdField w = 0) ∨ (opField w = 2 ∧ rsvdField w = 0 ∧ dataField w = 0)) →
      0x10 ≤ (addrField w).toNat → step s = .next (raise .addr { s with cmd := rest })) ∧
    (opField w = 1 → rsvdField w = 0 →
      (addrField w = 0x04 ∨ addrField w = 0x0E ∨ addrField w = 0x0F) →
      step s = .next (raise .ro { s with cmd := rest }))

/-- R154: taking an error records ERR and ECODE, responds {c, 0} and changes nothing else; while the host
does not take the response, the command waits with it. After it, no command is in progress. -/
def Obligations.TakingAnErrorRecordsAndResponds : Prop :=
  ∀ (s : State) (e : ErrorCode),
    (∀ q, s.rspReady.take = some q →
      raise e s = answered { s with err := true, ecode := e.code } q e.code 0) ∧
    (s.rspReady.take = none →
      raise e s = waiting { s with err := true, ecode := e.code } e.code 0) ∧
    ErrorCode.opcode.code = 1 ∧ ErrorCode.rsvd.code = 2 ∧ ErrorCode.addr.code = 3 ∧ ErrorCode.ro.code = 4

/-- R139: WRREG to INC, CAPS or SRATE raises E_RO and changes nothing except STATUS. -/
def Obligations.ReadOnlyRegistersRejectWrites : Prop :=
  ∀ (s : State) (a : BitVec 8) (v : Word) (q : Readiness), s.rspReady.take = some q →
    (a = 0x04 ∨ a = 0x0E ∨ a = 0x0F) →
    exec (.wrreg a v) s = .next (answered { s with err := true, ecode := 4 } q 4 0)

/-- R29: WRREG and RDREG with a reserved address raise E_ADDR, and nothing except STATUS changes. -/
def Obligations.ReservedAddressesAreRejected : Prop :=
  ∀ (s : State) (a : BitVec 8) (v : Word) (q : Readiness), s.rspReady.take = some q →
    0x10 ≤ a.toNat →
    exec (.wrreg a v) s = .next (answered { s with err := true, ecode := 3 } q 3 0) ∧
    exec (.rdreg a) s = .next (answered { s with err := true, ecode := 3 } q 3 0)

/-! ### Register access -/

/-- R132: WAVE takes v up to 7 and 7 above; nothing else changes. -/
def Obligations.WriteWaveClampsToSeven : Prop :=
  ∀ (s : State) (v : Word) (q : Readiness), s.rspReady.take = some q →
    exec (.wrreg 0x00 v) s = .next (answered { s with wave := BitVec.ofNat 3 (min v.toNat 7) } q 0 0)

/-- R133: FREQ takes every value as written, and the derived INC follows at once (R27); and the example of
the rule. -/
def Obligations.WriteFreqStoresTheOperand : Prop :=
  (∀ (s : State) (v : Word) (q : Readiness), s.rspReady.take = some q →
    exec (.wrreg 0x01 v) s = .next (answered { s with freq := v } q 0 0) ∧
    (answered { s with freq := v } q 0 0).inc = tune s.params v s.detune) ∧
  tune Params.default 0x2B110000 0 = 0x40000000

/-- R134: DETUNE takes the signed operand clamped to [−32768, 32767]. -/
def Obligations.WriteDetuneClampsTheSignedOperand : Prop :=
  ∀ (s : State) (v : Word) (q : Readiness), s.rspReady.take = some q →
    ∃ d : BitVec 16, d.toInt = min 32767 (max (-32768) v.toInt) ∧
      exec (.wrreg 0x02 v) s = .next (answered { s with detune := d } q 0 0)

/-- R135: HARM takes min(v, 0x8000). -/
def Obligations.WriteHarmClampsToOne : Prop :=
  ∀ (s : State) (v : Word) (q : Readiness), s.rspReady.take = some q →
    ∃ h : BitVec 16, h.toNat = min v.toNat 0x8000 ∧
      exec (.wrreg 0x03 v) s = .next (answered { s with harm := h } q 0 0)

/-- R136 and R137: PHASE and HPHk, at 0x05 and 0x04 + k, take v mod 2^PHASE_W, and a write to one leaves
the others unchanged. With PHASE_W = 32 every value is stored as written, and PHASE is the phase of the next
sample 0, so that the next sine sample after a write of half a turn is that of SINF(M/2) = 0. -/
def Obligations.WritePhaseReducesModuloTheTurn : Prop :=
  ∀ (s : State) (v : Word) (q : Readiness), s.rspReady.take = some q →
    ∃ x : Word, x.toNat = v.toNat % 2 ^ s.params.phaseW ∧ (s.params.phaseW = 32 → x = v) ∧
      exec (.wrreg 0x05 v) s = .next (answered { s with phase := x } q 0 0) ∧
      (answered { s with phase := x } q 0 0).phaseAt 0 = x.toNat ∧
      (x.toNat = 2 ^ s.params.phaseW / 2 → sinf s.params x.toNat = 0) ∧
      ∀ k : Overtone, ∃ h : HarmonicPhases, h.get k = x ∧ (∀ j, j ≠ k → h.get j = s.hph.get j) ∧
        exec (.wrreg (BitVec.ofNat 8 (0x04 + k.num)) v) s = .next (answered { s with hph := h } q 0 0)

/-- R138: a STATUS write with v[0] = 1 clears ERR and ECODE, any other changes nothing, and it always
responds OK. -/
def Obligations.WriteStatusClearsOnBitZero : Prop :=
  ∀ (s : State) (v : Word) (q : Readiness), s.rspReady.take = some q →
    exec (.wrreg 0x0D v) s =
      .next (answered (if v.toNat % 2 = 1 then { s with err := false, ecode := 0 } else s) q 0 0)

/-- R141: every register address reads the value of the table, in the response, and the read changes no
state (R59). -/
def Obligations.ReadsReturnTheRegisterTable : Prop :=
  ∀ (s : State) (q : Readiness), s.rspReady.take = some q →
    ∀ x ∈ registerTable s, exec (.rdreg x.1) s = .next (answered s q 0 x.2)

/-- R130: NOP responds OK and changes nothing; its word is 0, and any other word with OP 0 is E_RSVD. -/
def Obligations.NopOnlyResponds : Prop :=
  (∀ (s : State) (q : Readiness), s.rspReady.take = some q →
    exec .nop s = .next (answered s q 0 0)) ∧
  decode 0x0000000000000000 = .ok .nop ∧
  ∀ w : CmdWord, opField w = 0 → w ≠ 0 → decode w = .error .rsvd

/-- R142: RSTPH sets PHASE and every HPH[k] to 0 and changes nothing else; its word is 0x04 followed by
zeros, and any other word with OP 4 is E_RSVD; coherence holds afterwards, the next sine sample is 0, and a
second RSTPH changes nothing more. -/
def Obligations.RstphZeroesEveryPhase : Prop :=
  (∀ (s : State) (q : Readiness), s.rspReady.take = some q →
    ∃ h : HarmonicPhases, (∀ k, h.get k = 0) ∧
      let t := answered { s with phase := 0, hph := h } q 0 0
      exec .rstph s = .next t ∧ t.Coherent ∧
      (effectiveWave s.wave = .sine → ∀ nz, sampleWord t 0 nz = 0) ∧
      ∀ q', q.take = some q' → exec .rstph t = .next (answered t q' 0 0)) ∧
  decode 0x0400000000000000 = .ok .rstph ∧
  ∀ w : CmdWord, opField w = 4 → w ≠ 0x0400000000000000 → decode w = .error .rsvd

/-- R56 for a response: while the host does not take it, each of the commands other than GEN waits with its
response, and so does a GEN that has come to its response. Nothing else is left to do: when the host is ready
again, the step only sends that response, and ends in the very state in which the command would have ended had
the host been ready at its start. -/
def Obligations.UntakenResponseHoldsTheCommand : Prop :=
  ∀ (i : Instr) (s t : State) (q q' : Readiness), s.rst = false → s.rspReady.take = none →
    q.take = some q' → exec i s = .next t →
    ((∀ n, i ≠ .gen n) → ∃ r, t.busy = some (.respond r)) ∧
    ∀ r, t.busy = some (.respond r) →
      t.Held ∧ t.rsp = s.rsp ∧
      let u : State := { t with rsp := s.rsp ++ [r], rspReady := q', busy := none }
      exec i (setResponseReady q s) = .next u ∧ step (setResponseReady q t) = .next u

/-! ### Generation -/

/-- R102: SINF is the correctly rounded sine for every legal PHASE_W and FRAC and every phase word, never
at a tie, and bounded by 2^FRAC; it is exact at the quarter points, and the sine is irrational at every other
phase word; and the example of the rule. -/
def Obligations.SinfIsTheCorrectlyRoundedSine : Prop :=
  ∀ p : Params,
    (∀ θ : Nat, θ < 2 ^ p.phaseW →
      |(sinf p θ : ℝ) - 2 ^ p.frac * Real.sin (2 * Real.pi * θ / 2 ^ p.phaseW)| < 1 / 2 ∧
      |sinf p θ| ≤ 2 ^ p.frac ∧
      (¬2 ^ p.phaseW ∣ 4 * θ → Irrational (Real.sin (2 * Real.pi * θ / 2 ^ p.phaseW)))) ∧
    sinf p 0 = 0 ∧ sinf p (2 ^ p.phaseW / 4) = 2 ^ p.frac ∧ sinf p (2 ^ p.phaseW / 2) = 0 ∧
    sinf p (3 * 2 ^ p.phaseW / 4) = -2 ^ p.frac ∧ sinf Params.default (2 ^ 29) = 741455

/-- R101: TUNE is y rounded to nearest, ties to even, mod M; y is irrational, so never at a tie, unless
DETUNE is a whole number of octaves or FREQ is 0; and the example of the rule. -/
def Obligations.TuneIsTheRoundedIncrement : Prop :=
  (∀ (p : Params) (freq : Word) (detune : BitVec 16),
    let y : ℝ := freq.toNat / 2 ^ 16 * (2 : ℝ) ^ ((detune.toInt : ℝ) / 3072) * 2 ^ p.phaseW / p.sampleRate
    (∃ r : Nat, tune p freq detune = r % 2 ^ p.phaseW ∧ |y - r| ≤ 1 / 2 ∧ (|y - r| = 1 / 2 → Even r)) ∧
    (¬(3072 : Int) ∣ detune.toInt → freq ≠ 0 → Irrational y)) ∧
  tune Params.default (BitVec.ofNat 32 (440 * 2 ^ 16)) 0 = 0x028DDFB9

/-- R11: rne is the nearest integer, the even one at a tie. -/
def Obligations.RneRoundsHalfToEven : Prop :=
  ∀ x : Rat, (∀ z : Int, |x - rne x| ≤ |x - z|) ∧
    ∀ z : Int, z ≠ rne x → |x - z| = |x - rne x| → Even (rne x)

/-- R106 to R109, with the source's laws they realise (R93, R94): the base values, for the code of each
waveform and the fallback codes, at every phase word; R110's value for noise. -/
def Obligations.BaseValuesOfTheWaveforms : Prop :=
  ∀ (p : Params) (θ : Nat) (nz : Word), θ < 2 ^ p.phaseW →
    let u : Rat := θ / 2 ^ p.phaseW
    (∀ c : BitVec 3, c = 0 ∨ c = 5 ∨ c = 6 ∨ c = 7 →
      baseValue p (effectiveWave c) θ nz = sinf p θ / 2 ^ p.frac) ∧
    baseValue p (effectiveWave 1) θ nz = (if u ≤ 1 / 2 then 2 * u else 2 * u - 2) ∧
    baseValue p (effectiveWave 1) θ nz = 2 * (u - rne u) ∧
    baseValue p (effectiveWave 2) θ nz = (if u ≤ 1 / 2 then 4 * u - 1 else 3 - 4 * u) ∧
    baseValue p (effectiveWave 2) θ nz = 2 * |baseValue p (effectiveWave 1) θ nz| - 1 ∧
    baseValue p (effectiveWave 3) θ nz = (if u < 1 / 2 then 1 else -1) ∧
    baseValue p (effectiveWave 4) θ nz =
      (min (2 ^ p.frac) (max (-2 ^ p.frac) (nz.setWidth p.outW).toInt) : Int) / 2 ^ p.frac

/-- R103, R104, R111, R112: the integer a sample word stands for is the exact sum, with all seven overtones
whatever HARM is, rounded once and saturated; the word has OUT_W bits. -/
def Obligations.SampleIsTheSumRoundedOnceAndSaturated : Prop :=
  ∀ (s : State) (i : Nat) (nz : Word),
    let p := s.params
    let b := baseValue p (effectiveWave s.wave) ((s.phase.toNat + i * s.inc) % 2 ^ p.phaseW) nz
    let h : Rat := (Overtone.all.map fun k => (s.harm.toNat / 2 ^ 15 : Rat) / k.num *
      (sinf p (((s.hph.get k).toNat + i * k.num * s.inc) % 2 ^ p.phaseW) / 2 ^ p.frac)).sum
    ((sampleWord s i nz).setWidth p.outW).toInt =
      min (2 ^ (p.outW - 1) - 1) (max (-2 ^ (p.outW - 1)) (rne (2 ^ p.frac * (b + h)))) ∧
    (sampleWord s i nz).toNat < 2 ^ p.outW

/-- R114, with R115, R54 and R53: given its noise words and a host that takes its samples, GEN n emits samples
0 to n − 1 in that order, takes n noise words if the waveform is noise and none otherwise, advances PHASE by
n·INC and every HPH[k] by n·k·INC modulo the turn, responds OK or waits to, and changes nothing else. In a
legal state GEN 0 only responds. -/
def Obligations.GenEmitsItsSamplesAndAdvancesThePhases : Prop :=
  (∀ (s : State) (n : Word) (r : Readiness),
    (effectiveWave s.wave = .noise → n.toNat ≤ s.nz.length) →
    ((s.smpReady = .always ∧ r = .always) ∨
      ∃ c, s.smpReady = .credit (c + n.toNat) ∧ r = .credit c) →
    let t : State := { s with
      smp := s.smp ++ (List.range n.toNat).map fun i => sampleWord s i (s.nz.getD i 0)
      nz := if effectiveWave s.wave = .noise then s.nz.drop n.toNat else s.nz
      smpReady := r
      phase := BitVec.ofNat 32 ((s.phase.toNat + n.toNat * s.inc) % 2 ^ s.params.phaseW)
      hph := HarmonicPhases.ofFn fun k =>
        BitVec.ofNat 32 (((s.hph.get k).toNat + n.toNat * k.num * s.inc) % 2 ^ s.params.phaseW) }
    (∀ q, s.rspReady.take = some q → exec (.gen n) s = .next (answered t q 0 0)) ∧
    (s.rspReady.take = none → exec (.gen n) s = .next (waiting t 0 0))) ∧
  ∀ (s : State) (q : Readiness), s.Legal → s.rspReady.take = some q →
    exec (.gen 0) s = .next (answered s q 0 0)

/-- R55, R56, R113: where the noise words run out before sample m of GEN n, the command is held at sample m
with the samples before it emitted, no phase advanced and no response sent, and the step does not move it. -/
def Obligations.GenWithoutNoiseIsHeld : Prop :=
  ∀ (s : State) (n : Word) (r : Readiness), effectiveWave s.wave = .noise → s.nz.length < n.toNat →
    ((s.smpReady = .always ∧ r = .always) ∨
      ∃ c, s.smpReady = .credit (c + s.nz.length) ∧ r = .credit c) →
    s.rst = false →
    let t : State := { s with
      smp := s.smp ++ (List.range s.nz.length).map fun i => sampleWord s i (s.nz.getD i 0)
      nz := []
      smpReady := r
      busy := some (.gen n s.nz.length none) }
    exec (.gen n) s = .next t ∧ t.Held

/-- R56, R113: where the host takes only c of n samples, the command is held with sample c computed, its
noise word taken, and not emitted; no phase is advanced, no response is sent, and the step does not move it. -/
def Obligations.GenWithoutTheHostIsHeld : Prop :=
  ∀ (s : State) (n : Word) (c : Nat), s.smpReady = .credit c → c < n.toNat →
    (effectiveWave s.wave = .noise → c < s.nz.length) → s.rst = false →
    let t : State := { s with
      smp := s.smp ++ (List.range c).map fun i => sampleWord s i (s.nz.getD i 0)
      nz := if effectiveWave s.wave = .noise then s.nz.drop (c + 1) else s.nz
      smpReady := .credit 0
      busy := some (.gen n c (some (sampleWord s c (s.nz.getD c 0)))) }
    exec (.gen n) s = .next t ∧ t.Held

/-- R56, "its later effects are delayed, not changed": a GEN held for noise, once the noise source supplies
more, goes on to the very state it would have reached with all the noise words at the start. -/
def Obligations.LateNoiseDelaysButDoesNotChange : Prop :=
  ∀ (s t : State) (n : Word) (xs ys : List Word), effectiveWave s.wave = .noise → xs.length < n.toNat →
    TakesAtLeast xs.length s.smpReady → s.rst = false → exec (.gen n) { s with nz := xs } = .next t →
    step (offerNoise ys t) = exec (.gen n) { s with nz := xs ++ ys }

/-- R56 for the host's side: a GEN held with c of its n samples taken, once the host is ready for more of
them or for all, goes on to the very state it would have reached with the host ready for these as well at the
start. -/
def Obligations.LateHostDelaysButDoesNotChange : Prop :=
  ∀ (s t : State) (n : Word) (c : Nat) (q : Readiness), c < n.toNat → s.rst = false →
    (effectiveWave s.wave = .noise → c < s.nz.length) →
    exec (.gen n) { s with smpReady := .credit c } = .next t →
    step (setSampleReady q t) = exec (.gen n) { s with smpReady := moreBy c q }

/-- R116: GEN n1, then anything that leaves the operand registers, the phases and, with the noise waveform,
the noise stream as they were, then GEN n2 emits what one GEN (n1 + n2) emits from the first command's start,
and leaves the same phases. The host takes the samples, and may or may not take the responses. -/
def Obligations.ConsecutiveBuffersJoinBitForBit : Prop :=
  ∀ (s t t' u v : State) (n₁ n₂ : Word), n₁.toNat + n₂.toNat < 2 ^ 32 →
    (effectiveWave s.wave = .noise → n₁.toNat + n₂.toNat ≤ s.nz.length) →
    TakesAtLeast (n₁.toNat + n₂.toNat) s.smpReady →
    exec (.gen n₁) s = .next t →
    SameTone t t' → (effectiveWave s.wave = .noise → t'.nz = t.nz) → TakesAtLeast n₂.toNat t'.smpReady →
    exec (.gen n₂) t' = .next u →
    exec (.gen (n₁ + n₂)) s = .next v →
    ∃ head tail, head.length = n₁.toNat ∧ tail.length = n₂.toNat ∧ t.smp = s.smp ++ head ∧
      u.smp = t'.smp ++ tail ∧ v.smp = s.smp ++ (head ++ tail) ∧
      u.phase = v.phase ∧ u.hph = v.hph ∧ (effectiveWave s.wave = .noise → u.nz = v.nz)

/-- R117: harmonic coherence holds after reset and after RSTPH; every step keeps it, except that of a WRREG
to PHASE or an HPHk; and while it holds, overtone k of every sample is at k times the fundamental's
phase. -/
def Obligations.HarmonicCoherenceIsKept : Prop :=
  (∀ p, (State.resetOf p).Coherent) ∧
  (∀ s t, exec .rstph s = .next t → t.Coherent) ∧
  (∀ s t, s.Coherent → step s = .next t →
    (∀ w rest a v, s.rst = false → s.busy = none → s.cmd = w :: rest → decode w = .ok (.wrreg a v) →
      ¬(0x05 ≤ a.toNat ∧ a.toNat ≤ 0x0C)) →
    t.Coherent) ∧
  (∀ s : State, s.Coherent → ∀ (k : Overtone) (i : Nat),
    s.harmonicAt k i ≡ k.num * s.phaseAt i [MOD 2 ^ s.params.phaseW])

/-- R118: in every legal state the base value is at most 1, the overtone sum at most A·481/280 and the sum
at most 761/280 in size, and with OUT_W ≥ FRAC + 3 saturation changes no sample. -/
def Obligations.SamplesStayWithinTheOutputBound : Prop :=
  ∀ (s : State) (i : Nat) (nz : Word), s.Legal →
    let b := baseValue s.params (effectiveWave s.wave) (s.phaseAt i) nz
    let h := overtoneSum s.params s.harm fun k => s.harmonicAt k i
    |b| ≤ 1 ∧ |h| ≤ (s.harm.toNat / 2 ^ 15 : Rat) * (481 / 280) ∧ |b + h| ≤ 761 / 280 ∧
    (s.params.frac + 3 ≤ s.params.outW →
      sampleToInt s.params (sampleWord s i nz) = rne (2 ^ s.params.frac * (b + h)))

/-- R119, first part: sample i's phase is off the source's exact phase by at most i/2 units, modulo whole
turns. -/
def Obligations.PhaseErrorGrowsByHalfAUnitPerSample : Prop :=
  ∀ (s : State) (i : Nat),
    let y : ℝ := s.freq.toNat / 2 ^ 16 * (2 : ℝ) ^ ((s.detune.toInt : ℝ) / 3072) * 2 ^ s.params.phaseW /
      s.params.sampleRate
    ∃ z : Int, |(s.phase.toNat + i * y) - s.phaseAt i - z * 2 ^ s.params.phaseW| ≤ i / 2

/-- R119, the other parts together: with room for the sum, a sample lies within 2^-(FRAC+1) for the base
sine, A·481/280 times that for the overtones, and 2^-(FRAC+1) for the final rounding, of the source's real
laws at the sample's phases. -/
def Obligations.SamplesStayCloseToTheRealLaws : Prop :=
  ∀ (s : State) (i : Nat) (nz : Word), s.Legal → s.params.frac + 3 ≤ s.params.outW →
    |(sampleToInt s.params (sampleWord s i nz) : ℝ) / 2 ^ s.params.frac -
        (realBase s.params (effectiveWave s.wave) (s.phaseAt i) nz +
          realOvertones s.params s.harm fun k => s.harmonicAt k i)| ≤
      ((if effectiveWave s.wave = .sine then 1 else 0) + (s.harm.toNat : ℝ) / 2 ^ 15 * (481 / 280) + 1) /
        2 ^ (s.params.frac + 1)

/-- R105: a GEN with a fallback code 5, 6 or 7 does what it does with code 0, and takes no noise word. -/
def Obligations.UnknownWaveformActsAsSine : Prop :=
  ∀ (s t : State) (n : Word) (c : BitVec 3), c = 5 ∨ c = 6 ∨ c = 7 →
    exec (.gen n) { s with wave := c } = .next t →
    t.nz = s.nz ∧ exec (.gen n) { s with wave := 0 } = .next { t with wave := 0 }

/-- R173: from the reset state, GEN n emits n zero samples and responds OK. That the host takes them is the
model's choice of reset state (log entry 5). -/
def Obligations.GenFromResetIsSilent : Prop :=
  ∀ (p : Params) (n : Word),
    exec (.gen n) (State.resetOf p) = .next (answered
      { State.resetOf p with smp := List.replicate n.toNat 0 } .always 0 0)

/-! ### Frames and whole-machine rules -/

/-- The frame of the commands that are not GEN: no sample moves, no noise word is taken, and neither the
command stream, a reset request nor a parameter changes (R54, R55). NOP and RDREG change no register but
STATUS, and that only by an error. -/
def Obligations.RegisterCommandsLeaveTheStreamsAlone : Prop :=
  ∀ (i : Instr) (s t : State), (∀ n, i ≠ .gen n) → exec i s = .next t →
    SameInputs s t ∧
    ((i = .nop ∨ ∃ a, i = .rdreg a) → SameTone s t) ∧
    (i = .nop ∨ i = .rstph ∨ (∃ a, i = .rdreg a ∧ a.toNat < 0x10) → t.err = s.err ∧ t.ecode = s.ecode) ∧
    (i = .rstph → t.wave = s.wave ∧ t.freq = s.freq ∧ t.detune = s.detune ∧ t.harm = s.harm)

/-- The frame of WRREG: a register other than the one at the address is unchanged; STATUS is unchanged
unless it is the register or the write is an error. -/
def Obligations.WriteChangesOnlyItsRegister : Prop :=
  ∀ (s t : State) (a : BitVec 8) (v : Word), exec (.wrreg a v) s = .next t →
    (a ≠ 0x00 → t.wave = s.wave) ∧ (a ≠ 0x01 → t.freq = s.freq) ∧ (a ≠ 0x02 → t.detune = s.detune) ∧
    (a ≠ 0x03 → t.harm = s.harm) ∧ (a ≠ 0x05 → t.phase = s.phase) ∧
    (∀ k : Overtone, a ≠ BitVec.ofNat 8 (4 + k.num) → t.hph.get k = s.hph.get k) ∧
    ((Instr.wrreg a v).wellFormed = true → a ≠ 0x0D → t.err = s.err ∧ t.ecode = s.ecode)

/-- The frame of GEN, held or complete: the operand registers, STATUS, the command stream, a reset request
and the parameters are unchanged; samples are only added, at most n; noise words are only taken, and none
unless the waveform is noise; and while it is held at a sample no phase has changed. -/
def Obligations.GenLeavesTheOperandRegistersAlone : Prop :=
  ∀ (s t : State) (n : Word), exec (.gen n) s = .next t →
    t.params = s.params ∧ t.wave = s.wave ∧ t.freq = s.freq ∧ t.detune = s.detune ∧ t.harm = s.harm ∧
    t.err = s.err ∧ t.ecode = s.ecode ∧ t.cmd = s.cmd ∧ t.rst = s.rst ∧
    (∃ out, t.smp = s.smp ++ out ∧ out.length ≤ n.toNat ∧ (t.busy = none → out.length = n.toNat)) ∧
    (∃ taken, s.nz = taken ++ t.nz ∧ (effectiveWave s.wave ≠ .noise → taken = []) ∧
      (effectiveWave s.wave = .noise → t.busy = none → taken.length = n.toNat)) ∧
    ((∃ i x, t.busy = some (.gen n i x)) → t.phase = s.phase ∧ t.hph = s.hph)

/-- R53: a command that ends sends exactly one response, and one that is held has sent none yet. Its status
is 0 when the command is well-formed, and otherwise the code that ECODE records, with data 0. -/
def Obligations.EveryCommandSendsOneResponse : Prop :=
  ∀ (i : Instr) (s t : State), exec i s = .next t →
    (t.busy = none ∧ ∃ r, t.rsp = s.rsp ++ [r] ∧
      (i.wellFormed = true → r.status = 0) ∧
      (i.wellFormed = false → r.status = t.ecode ∧ r.status ≠ 0 ∧ r.data = 0)) ∨
    (t.busy ≠ none ∧ t.rsp = s.rsp)

/-- R28, R155: what a command leaves in ERR and ECODE, and what a step does: a reset clears them; a step that
goes on with a held command, or is idle, leaves them; a rejected word sets them to its error, over an earlier
one; and a word that is a command leaves what the command leaves. -/
def Obligations.StatusChangesOnlyByErrorOrClear : Prop :=
  (∀ (i : Instr) (s t : State), exec i s = .next t → StatusAfter i s t) ∧
  ∀ s t : State, step s = .next t →
    (s.rst = true → t.err = false ∧ t.ecode = 0) ∧
    (s.rst = false → s.busy ≠ none ∨ s.cmd = [] → t.err = s.err ∧ t.ecode = s.ecode) ∧
    ∀ w rest, s.rst = false → s.busy = none → s.cmd = w :: rest →
      (∀ e, decode w = .error e → t.err = true ∧ t.ecode = e.code) ∧
      (∀ i, decode w = .ok i → StatusAfter i s t)

/-- R150, R156: no step ends in a fault or a refusal, whatever the state. -/
def Obligations.NoStepStops : Prop := ∀ s : State, ∃ t, step s = .next t

/-- R7, R8: no step changes the parameters of the instance. -/
def Obligations.ParametersNeverChange : Prop := ∀ s t : State, step s = .next t → t.params = s.params

/-- The reset state is legal, for every choice of parameters. -/
def Obligations.ResetStateIsLegal : Prop := ∀ p : Params, (State.resetOf p).Legal

/-- Every step from a legal state gives a legal state: each register stays in its range (PHASE and HPH below
the turn, HARM at most 0x8000, ECODE 0 exactly when ERR is), every sample word that has moved or waits has
OUT_W bits, and no response has a reserved status or an error's response data. -/
def Obligations.EveryStepKeepsTheStateLegal : Prop :=
  ∀ s t : State, s.Legal → step s = .next t → t.Legal

/-! ### Steps, reset and the host -/

/-- A step with no command in progress and no reset request takes the next word and runs the command it
decodes to. -/
def Obligations.StepRunsTheDecodedCommand : Prop :=
  ∀ (s : State) (w : CmdWord) (rest : List CmdWord) (i : Instr), s.rst = false → s.busy = none →
    s.cmd = w :: rest → decode w = .ok i → step s = exec i { s with cmd := rest }

/-- R52, R164: a step takes no word while a command is in progress, and an idle block keeps its state. -/
def Obligations.StepTakesNoWordWhileBusy : Prop :=
  ∀ s t : State, s.rst = false → step s = .next t →
    (s.busy ≠ none → t.cmd = s.cmd) ∧ (s.busy = none → s.cmd = [] → t = s)

/-- The word placed by withFetchWord is the next that the step runs (log entry 6: the model's own way of
placing a program). -/
def Obligations.PlacedWordIsRunNext : Prop :=
  ∀ (s : State) (i : Instr), step (s.withFetchWord 64 (encode i).toNat) =
    exec i { s with busy := none, rst := false }

/-- R170: at the start of the model, and after the step that meets a reset request, every register has the
value of the rule's table, no command is in progress, and its pending response and samples are gone; for every
choice of parameters, the model's initial state being that of the defaults. -/
def Obligations.ResetEntersTheResetState : Prop :=
  (∀ p : Params, InResetState (State.resetOf p) ∧ (State.resetOf p).params = p) ∧
  (∀ s : State, s.rst = true → ∃ t, step s = .next t ∧ InResetState t ∧ t.params = s.params ∧
    t.smp = s.smp ∧ t.rsp = s.rsp) ∧
  State.reset = State.resetOf Params.default

/-- R171, with the model's choices of log entry 7: a step that meets a reset request abandons the command in
progress; words that have moved stay moved, noise words that have not are lost, offered command words are
not taken, and the request is met, so that the step after it goes on from the reset state. A reset of the
initial state changes nothing, and its streams are empty (R172). -/
def Obligations.ResetAbandonsTheCommand : Prop :=
  (∀ s : State, s.rst = true → ∃ t, step s = .next t ∧ t.busy = none ∧ t.rst = false ∧ t.nz = [] ∧
    t.phase = 0 ∧ (∀ k, t.hph.get k = 0) ∧ t.smp = s.smp ∧ t.rsp = s.rsp ∧ t.cmd = s.cmd) ∧
  (∀ p : Params, step (requestReset (State.resetOf p)) = .next (State.resetOf p) ∧
    (State.resetOf p).cmd = [] ∧ (State.resetOf p).nz = [] ∧ (State.resetOf p).smp = [] ∧
    (State.resetOf p).rsp = [])

/-- R86: the pseudo-commands expand to the commands of the table, for every operand in its range. -/
def Obligations.PseudoCommandsExpand : Prop :=
  (∀ hz : Rat, 0 ≤ hz → hz ≤ 65536 - 1 / 2 ^ 16 → ∃ v : Word, (v.toNat : Int) = rne (hz * 2 ^ 16) ∧
    assemble (.setFreq hz) = some (.wrreg 0x01 v)) ∧
  (∀ st : Rat, ∃ v : Word, (v.toNat : Int) = rne (st * 256) % 2 ^ 32 ∧
    assemble (.setDetune st) = some (.wrreg 0x02 v)) ∧
  (∀ a : Rat, 0 ≤ a → a ≤ 1 → ∃ v : Word, (v.toNat : Int) = rne (a * 2 ^ 15) ∧
    assemble (.setHarm a) = some (.wrreg 0x03 v)) ∧
  assemble .clrErr = some (.wrreg 0x0D 1) ∧ assemble .sync = some .rstph ∧
  assembleLine "SETWAVE SINE" = .command (.wrreg 0x00 0) ∧
  assembleLine "SETWAVE SAW" = .command (.wrreg 0x00 1) ∧
  assembleLine "SETWAVE TRI" = .command (.wrreg 0x00 2) ∧
  assembleLine "SETWAVE PULSE" = .command (.wrreg 0x00 3) ∧
  assembleLine "SETWAVE NOISE" = .command (.wrreg 0x00 4) ∧
  assembleLine "SETFREQ 440" = .command (.wrreg 0x01 0x01B80000) ∧
  encode (.wrreg 0x01 0x01B80000) = 0x0101000001B80000

/-! ### The byte-wide transport -/

/-- R57 for responses, samples and noise words, with the byte counts of log entry 8 (the model's inference):
the bytes are the number's, least significant first, and carry it; a noise word is read back from its bytes,
and what follows them is left; and where too few bytes are there, there is none yet (the model's choice, log
entry 8). -/
def Obligations.OtherWordsBytesAreLittleEndian : Prop :=
  (∀ r : Response, responseBytes r = (List.range 5).map (fun j => BitVec.ofNat 8 (r.pack.toNat / 2 ^ (8 * j))) ∧
    ofBytesLE (responseBytes r) = r.pack.toNat) ∧
  ∀ (p : Params) (w : Word), SampleFits p w →
    sampleBytes p w =
      (List.range ((p.outW + 7) / 8)).map (fun j => BitVec.ofNat 8 (w.toNat / 2 ^ (8 * j))) ∧
    ofBytesLE (sampleBytes p w) = w.toNat ∧
    (∀ rest, noiseOfBytes p (sampleBytes p w ++ rest) = some (w, rest)) ∧
    ∀ bs, bs.length < (p.outW + 7) / 8 → noiseOfBytes p bs = none
end

