-- ==== Sys2Proof/Laws/Arith.lean ====
section
/-! SUPPORT. What the shared primitives of Machine/Arith.lean do. -/

namespace Sys2Proof.Machine

/-- The search finds the floor: the test holds at its answer and fails just above. -/
theorem greatest_spec (ok : Nat → Bool) (b acc : Nat)
    (h0 : ok acc = true) (hi : ok (acc + 2 ^ b) = false) :
    ok (greatest ok b acc) = true ∧ ok (greatest ok b acc + 1) = false := by
  induction b generalizing acc with
  | zero => exact ⟨h0, hi⟩
  | succ b ih =>
    unfold greatest
    split
    case isTrue h => exact ih _ h (by rw [← hi]; congr 1; omega)
    case isFalse h => exact ih _ h0 (by simpa using h)

/-- A downward closed test has at most one such floor. -/
theorem floor_unique (ok : Nat → Bool) (mono : ∀ a b, a ≤ b → ok b = true → ok a = true) {g g' : Nat}
    (h : ok g = true ∧ ok (g + 1) = false) (h' : ok g' = true ∧ ok (g' + 1) = false) : g = g' := by
  by_contra hne
  rcases Nat.lt_or_gt_of_ne hne with hlt | hlt
  · exact Bool.noConfusion (h.2.symm.trans (mono _ _ hlt h'.1))
  · exact Bool.noConfusion (h'.2.symm.trans (mono _ _ hlt h.1))

/-- `rne` is a nearest integer, and the even one at a tie. -/
theorem rne_spec (x : Rat) :
    |x - rne x| ≤ 1 / 2 ∧ (|x - rne x| = 1 / 2 → Even (rne x)) := by
  have h1 : (x.floor : Rat) ≤ x := Rat.floor_le x
  have h2 : x < x.floor + 1 := by exact_mod_cast Rat.lt_floor_add_one x
  unfold rne
  split
  · exact ⟨by rw [abs_le]; constructor <;> linarith, fun h => by
      rcases (abs_eq (by norm_num : (0 : Rat) ≤ 1 / 2)).1 h with h | h <;> linarith⟩
  split
  · push_cast
    exact ⟨by rw [abs_le]; constructor <;> linarith, fun h => by
      rcases (abs_eq (by norm_num : (0 : Rat) ≤ 1 / 2)).1 h with h | h <;> linarith⟩
  split
  · exact ⟨by rw [abs_le]; constructor <;> linarith, fun _ => Int.even_iff.2 ‹_›⟩
  · push_cast
    exact ⟨by rw [abs_le]; constructor <;> linarith, fun _ => Int.even_iff.2 (by omega)⟩

/-- An integer in [lo, hi] is not clamped. -/
theorem clamp_of_mem {x lo hi : Int} (h1 : lo ≤ x) (h2 : x ≤ hi) : clamp x lo hi = x := by
  simp only [clamp]; omega

/-- A clamped integer lies in a range that is not empty. -/
theorem clamp_mem (x : Int) {lo hi : Int} (h : lo ≤ hi) : lo ≤ clamp x lo hi ∧ clamp x lo hi ≤ hi := by
  simp only [clamp]; omega

/-- 2^k is positive, for the bounds of the sample range. -/
theorem satS_mem (p : Params) (x : Int) :
    -(2 ^ (p.outW - 1) : Int) ≤ satS p x ∧ satS p x ≤ 2 ^ (p.outW - 1) - 1 := by
  have : (0 : Int) < 2 ^ (p.outW - 1) := by positivity
  have := clamp_mem x (lo := -(2 ^ (p.outW - 1) : Nat)) (hi := (2 ^ (p.outW - 1) : Nat) - 1)
    (by push_cast; omega)
  simpa [satS] using this

/-- A sample word stands for the integer it was made of, within the sample range. -/
theorem sampleToInt_sampleOfInt (p : Params) (x : Int) (h1 : -(2 ^ (p.outW - 1) : Int) ≤ x)
    (h2 : x ≤ 2 ^ (p.outW - 1) - 1) : sampleToInt p (sampleOfInt p x) = x := by
  have hw := p.outW_legal
  have hf := p.frac_legal
  rw [sampleToInt, sampleOfInt, BitVec.setWidth_setWidth_of_le _ hw.2, BitVec.setWidth_eq, BitVec.toInt_ofInt]
  have h2' : x < 2 ^ (p.outW - 1) := by omega
  have hp : ((2 ^ p.outW : Nat) : Int) = 2 * 2 ^ (p.outW - 1) := by
    push_cast; rw [← pow_succ']; congr 1; omega
  exact Int.bmod_eq_of_le (by rw [hp]; omega) (by rw [hp]; omega)

/-- A sample word has OUT_W bits. -/
theorem sampleOfInt_lt (p : Params) (x : Int) : (sampleOfInt p x).toNat < 2 ^ p.outW := by
  rw [sampleOfInt, BitVec.toNat_setWidth]
  exact (Nat.mod_le _ _).trans_lt (BitVec.ofInt p.outW x).isLt

theorem turn_pos (p : Params) : 0 < p.turn := Nat.two_pow_pos _

theorem turn_le (p : Params) : p.turn ≤ 2 ^ 32 :=
  Nat.pow_le_pow_right (by decide) p.phaseW_legal.2

theorem turn_eq_four_quarters (p : Params) : p.turn = 4 * p.quarterTurn := by
  rw [Params.turn, Params.quarterTurn, show 4 = 2 ^ 2 by rfl, ← pow_add]; congr 1
  have := p.phaseW_legal; omega

theorem turn_eq_two_halves (p : Params) : p.turn = 2 * p.halfTurn := by
  rw [Params.turn, Params.halfTurn, ← pow_succ']; congr 1
  have := p.phaseW_legal; omega

/-- A phase word stored in a Word is the phase, reduced mod M. -/
@[simp] theorem toNat_ofNat_mod_turn (p : Params) (x : Nat) :
    (BitVec.ofNat 32 (x % p.turn)).toNat = x % p.turn := by
  rw [BitVec.toNat_ofNat]
  exact Nat.mod_eq_of_lt ((Nat.mod_lt _ (turn_pos p)).trans_le (turn_le p))

end Sys2Proof.Machine
end

