-- ==== Sys2Proof/Laws/Decode.lean ====
section
/-! SUPPORT. The fields of a command word as parts of its number, from which every fact about encoding
and decoding is linear arithmetic. -/

namespace Sys2Proof

theorem opField_toNat (w : CmdWord) : (opField w).toNat = w.toNat / 2 ^ 56 := by
  have := w.isLt
  simp only [opField, BitVec.extractLsb'_toNat, Nat.shiftRight_eq_div_pow]; omega

theorem addrField_toNat (w : CmdWord) : (addrField w).toNat = w.toNat / 2 ^ 48 % 2 ^ 8 := by
  simp only [addrField, BitVec.extractLsb'_toNat, Nat.shiftRight_eq_div_pow]

theorem rsvdField_toNat (w : CmdWord) : (rsvdField w).toNat = w.toNat / 2 ^ 32 % 2 ^ 16 := by
  simp only [rsvdField, BitVec.extractLsb'_toNat, Nat.shiftRight_eq_div_pow]

theorem dataField_toNat (w : CmdWord) : (dataField w).toNat = w.toNat % 2 ^ 32 := by
  simp only [dataField, BitVec.extractLsb'_toNat, Nat.shiftRight_eq_div_pow]; omega

theorem packFields_toNat (op addr : BitVec 8) (data : Word) :
    (packFields op addr data).toNat = op.toNat * 2 ^ 56 + addr.toNat * 2 ^ 48 + data.toNat := by
  have h := data.isLt
  have h' := addr.isLt
  simp only [packFields, BitVec.toNat_append, BitVec.toNat_ofNat]
  rw [← Nat.shiftLeft_add_eq_or_of_lt h', ← Nat.shiftLeft_add_eq_or_of_lt (b := 0 % 2 ^ 16) (by decide),
    ← Nat.shiftLeft_add_eq_or_of_lt h]
  simp only [Nat.shiftLeft_eq]; omega

@[simp] theorem opField_packFields (op addr : BitVec 8) (data : Word) :
    opField (packFields op addr data) = op := by
  apply BitVec.eq_of_toNat_eq
  have := data.isLt; have := addr.isLt
  rw [opField_toNat, packFields_toNat]; omega

@[simp] theorem addrField_packFields (op addr : BitVec 8) (data : Word) :
    addrField (packFields op addr data) = addr := by
  apply BitVec.eq_of_toNat_eq
  have := data.isLt; have := addr.isLt
  rw [addrField_toNat, packFields_toNat]; omega

@[simp] theorem rsvdField_packFields (op addr : BitVec 8) (data : Word) :
    rsvdField (packFields op addr data) = 0 := by
  apply BitVec.eq_of_toNat_eq
  have := data.isLt; have := addr.isLt
  rw [rsvdField_toNat, packFields_toNat]; change _ = 0; omega

@[simp] theorem dataField_packFields (op addr : BitVec 8) (data : Word) :
    dataField (packFields op addr data) = data := by
  apply BitVec.eq_of_toNat_eq
  have := data.isLt; have := addr.isLt
  rw [dataField_toNat, packFields_toNat]; omega

/-- A word whose RSVD is 0 is its other three fields. -/
theorem packFields_fields (w : CmdWord) (h : rsvdField w = 0) :
    packFields (opField w) (addrField w) (dataField w) = w := by
  apply BitVec.eq_of_toNat_eq
  have h' := congrArg BitVec.toNat h
  rw [rsvdField_toNat] at h'; change _ = 0 at h'
  rw [packFields_toNat, opField_toNat, addrField_toNat, dataField_toNat]; omega

/-- The four fields make up the word. -/
theorem fields_append (w : CmdWord) :
    w = opField w ++ addrField w ++ rsvdField w ++ dataField w := by
  apply BitVec.eq_of_toNat_eq
  have := w.isLt
  simp only [BitVec.toNat_append]
  rw [← Nat.shiftLeft_add_eq_or_of_lt (addrField w).isLt, ← Nat.shiftLeft_add_eq_or_of_lt (rsvdField w).isLt,
    ← Nat.shiftLeft_add_eq_or_of_lt (dataField w).isLt]
  simp only [Nat.shiftLeft_eq, opField_toNat, addrField_toNat, rsvdField_toNat, dataField_toNat]
  omega

/-- Words are equal when their fields are. -/
theorem eq_iff_fields (v w : CmdWord) :
    v = w ↔ opField v = opField w ∧ addrField v = addrField w ∧ rsvdField v = rsvdField w ∧
      dataField v = dataField w := by
  constructor
  · rintro rfl; exact ⟨rfl, rfl, rfl, rfl⟩
  · rintro ⟨h1, h2, h3, h4⟩; rw [fields_append v, fields_append w, h1, h2, h3, h4]

/-- Masking a word masks each field. -/
theorem fields_and (v w : CmdWord) :
    opField (v &&& w) = opField v &&& opField w ∧ addrField (v &&& w) = addrField v &&& addrField w ∧
      rsvdField (v &&& w) = rsvdField v &&& rsvdField w ∧ dataField (v &&& w) = dataField v &&& dataField w := by
  refine ⟨?_, ?_, ?_, ?_⟩ <;>
  · simp only [opField, addrField, rsvdField, dataField]
    ext i hi
    simp

/-- The masks of R76 keep whole fields, so a word spells a row when those fields have its values. -/
theorem spells_iff_fields (w : CmdWord) :
    (Instr.nop.row.spells w = true ↔ opField w = 0 ∧ addrField w = 0 ∧ rsvdField w = 0 ∧ dataField w = 0) ∧
    ((Instr.wrreg 0 0).row.spells w = true ↔ opField w = 1 ∧ rsvdField w = 0) ∧
    ((Instr.rdreg 0).row.spells w = true ↔ opField w = 2 ∧ rsvdField w = 0 ∧ dataField w = 0) ∧
    ((Instr.gen 0).row.spells w = true ↔ opField w = 3 ∧ addrField w = 0 ∧ rsvdField w = 0) ∧
    (Instr.rstph.row.spells w = true ↔
      opField w = 4 ∧ addrField w = 0 ∧ rsvdField w = 0 ∧ dataField w = 0) := by
  have key : ∀ r : OpcodeRow, r.spells w = true ↔
      opField w &&& opField r.mask = opField r.pattern ∧
      addrField w &&& addrField r.mask = addrField r.pattern ∧
      rsvdField w &&& rsvdField r.mask = rsvdField r.pattern ∧
      dataField w &&& dataField r.mask = dataField r.pattern := by
    intro r
    rw [OpcodeRow.spells, beq_iff_eq, eq_iff_fields, (fields_and _ _).1, (fields_and _ _).2.1,
      (fields_and _ _).2.2.1, (fields_and _ _).2.2.2]
  have ones8 : ∀ x : BitVec 8, x &&& 0xFF#8 = x := fun x => BitVec.and_allOnes (x := x)
  have ones16 : ∀ x : BitVec 16, x &&& 0xFFFF#16 = x := fun x => BitVec.and_allOnes (x := x)
  have ones32 : ∀ x : BitVec 32, x &&& 0xFFFFFFFF#32 = x := fun x => BitVec.and_allOnes (x := x)
  refine ⟨?_, ?_, ?_, ?_, ?_⟩ <;> rw [key] <;>
    simp [Instr.row, opField, addrField, rsvdField, dataField, ones8, ones16, ones32]

@[simp] theorem length_bytesLE (n v : Nat) : (bytesLE n v).length = n := by
  induction n generalizing v with
  | zero => rfl
  | succ n ih => simp [bytesLE, ih]

/-- n bytes carry a number modulo 256^n. -/
theorem ofBytesLE_bytesLE (n v : Nat) : ofBytesLE (bytesLE n v) = v % 256 ^ n := by
  induction n generalizing v with
  | zero => simp [bytesLE, ofBytesLE, Nat.mod_one]
  | succ n ih =>
    rw [bytesLE, ofBytesLE, ih, BitVec.toNat_ofNat, Nat.pow_succ' (m := 256), Nat.mod_mul]

/-- Byte j of a number is its bits from 8j on (20_memory.md R57). -/
theorem bytesLE_eq_map (n v : Nat) :
    bytesLE n v = (List.range n).map fun j => BitVec.ofNat 8 (v / 2 ^ (8 * j)) := by
  induction n generalizing v with
  | zero => rfl
  | succ n ih =>
    rw [bytesLE, ih, List.range_succ_eq_map, List.map_cons, List.map_map]
    congr 1
    · rw [Nat.mul_zero, Nat.pow_zero, Nat.div_one]
    · refine List.map_congr_left fun j _ => ?_
      rw [Function.comp_apply, Nat.div_div_eq_div_mul, Nat.mul_succ, Nat.pow_add, Nat.mul_comm (2 ^ (8 * j))]

end Sys2Proof
end

