-- ==== Sys2Proof/Laws/State.lean ====
section
/-! SUPPORT. One lemma per field per named update of State, and the register file's own laws. -/

namespace Sys2Proof.Machine

section Fields

variable (s : State)

@[simp] theorem respond_params (c : BitVec 4) (d : Word) : (respond c d s).params = s.params := by unfold respond; split <;> rfl
@[simp] theorem respond_wave (c : BitVec 4) (d : Word) : (respond c d s).wave = s.wave := by unfold respond; split <;> rfl
@[simp] theorem respond_freq (c : BitVec 4) (d : Word) : (respond c d s).freq = s.freq := by unfold respond; split <;> rfl
@[simp] theorem respond_detune (c : BitVec 4) (d : Word) : (respond c d s).detune = s.detune := by unfold respond; split <;> rfl
@[simp] theorem respond_harm (c : BitVec 4) (d : Word) : (respond c d s).harm = s.harm := by unfold respond; split <;> rfl
@[simp] theorem respond_phase (c : BitVec 4) (d : Word) : (respond c d s).phase = s.phase := by unfold respond; split <;> rfl
@[simp] theorem respond_hph (c : BitVec 4) (d : Word) : (respond c d s).hph = s.hph := by unfold respond; split <;> rfl
@[simp] theorem respond_err (c : BitVec 4) (d : Word) : (respond c d s).err = s.err := by unfold respond; split <;> rfl
@[simp] theorem respond_ecode (c : BitVec 4) (d : Word) : (respond c d s).ecode = s.ecode := by unfold respond; split <;> rfl
@[simp] theorem respond_rst (c : BitVec 4) (d : Word) : (respond c d s).rst = s.rst := by unfold respond; split <;> rfl
@[simp] theorem respond_cmd (c : BitVec 4) (d : Word) : (respond c d s).cmd = s.cmd := by unfold respond; split <;> rfl
@[simp] theorem respond_nz (c : BitVec 4) (d : Word) : (respond c d s).nz = s.nz := by unfold respond; split <;> rfl
@[simp] theorem respond_smp (c : BitVec 4) (d : Word) : (respond c d s).smp = s.smp := by unfold respond; split <;> rfl
@[simp] theorem respond_smpReady (c : BitVec 4) (d : Word) : (respond c d s).smpReady = s.smpReady := by unfold respond; split <;> rfl

@[simp] theorem recordError_params (e : ErrorCode) : (recordError e s).params = s.params := rfl
@[simp] theorem recordError_wave (e : ErrorCode) : (recordError e s).wave = s.wave := rfl
@[simp] theorem recordError_freq (e : ErrorCode) : (recordError e s).freq = s.freq := rfl
@[simp] theorem recordError_detune (e : ErrorCode) : (recordError e s).detune = s.detune := rfl
@[simp] theorem recordError_harm (e : ErrorCode) : (recordError e s).harm = s.harm := rfl
@[simp] theorem recordError_phase (e : ErrorCode) : (recordError e s).phase = s.phase := rfl
@[simp] theorem recordError_hph (e : ErrorCode) : (recordError e s).hph = s.hph := rfl
@[simp] theorem recordError_busy (e : ErrorCode) : (recordError e s).busy = s.busy := rfl
@[simp] theorem recordError_rst (e : ErrorCode) : (recordError e s).rst = s.rst := rfl
@[simp] theorem recordError_cmd (e : ErrorCode) : (recordError e s).cmd = s.cmd := rfl
@[simp] theorem recordError_nz (e : ErrorCode) : (recordError e s).nz = s.nz := rfl
@[simp] theorem recordError_smp (e : ErrorCode) : (recordError e s).smp = s.smp := rfl
@[simp] theorem recordError_smpReady (e : ErrorCode) : (recordError e s).smpReady = s.smpReady := rfl
@[simp] theorem recordError_rsp (e : ErrorCode) : (recordError e s).rsp = s.rsp := rfl
@[simp] theorem recordError_rspReady (e : ErrorCode) : (recordError e s).rspReady = s.rspReady := rfl

@[simp] theorem recordError_err (e : ErrorCode) : (recordError e s).err = true := rfl
@[simp] theorem recordError_ecode (e : ErrorCode) : (recordError e s).ecode = e.code := rfl

@[simp] theorem raise_params (e : ErrorCode) : (raise e s).params = s.params := by simp [raise]
@[simp] theorem raise_wave (e : ErrorCode) : (raise e s).wave = s.wave := by simp [raise]
@[simp] theorem raise_freq (e : ErrorCode) : (raise e s).freq = s.freq := by simp [raise]
@[simp] theorem raise_detune (e : ErrorCode) : (raise e s).detune = s.detune := by simp [raise]
@[simp] theorem raise_harm (e : ErrorCode) : (raise e s).harm = s.harm := by simp [raise]
@[simp] theorem raise_phase (e : ErrorCode) : (raise e s).phase = s.phase := by simp [raise]
@[simp] theorem raise_hph (e : ErrorCode) : (raise e s).hph = s.hph := by simp [raise]
@[simp] theorem raise_rst (e : ErrorCode) : (raise e s).rst = s.rst := by simp [raise]
@[simp] theorem raise_cmd (e : ErrorCode) : (raise e s).cmd = s.cmd := by simp [raise]
@[simp] theorem raise_nz (e : ErrorCode) : (raise e s).nz = s.nz := by simp [raise]
@[simp] theorem raise_smp (e : ErrorCode) : (raise e s).smp = s.smp := by simp [raise]
@[simp] theorem raise_smpReady (e : ErrorCode) : (raise e s).smpReady = s.smpReady := by simp [raise]

@[simp] theorem raise_err (e : ErrorCode) : (raise e s).err = true := by simp [raise]
@[simp] theorem raise_ecode (e : ErrorCode) : (raise e s).ecode = e.code := by simp [raise]

@[simp] theorem resetPhases_params : (resetPhases s).params = s.params := rfl
@[simp] theorem resetPhases_wave : (resetPhases s).wave = s.wave := rfl
@[simp] theorem resetPhases_freq : (resetPhases s).freq = s.freq := rfl
@[simp] theorem resetPhases_detune : (resetPhases s).detune = s.detune := rfl
@[simp] theorem resetPhases_harm : (resetPhases s).harm = s.harm := rfl
@[simp] theorem resetPhases_err : (resetPhases s).err = s.err := rfl
@[simp] theorem resetPhases_ecode : (resetPhases s).ecode = s.ecode := rfl
@[simp] theorem resetPhases_busy : (resetPhases s).busy = s.busy := rfl
@[simp] theorem resetPhases_rst : (resetPhases s).rst = s.rst := rfl
@[simp] theorem resetPhases_cmd : (resetPhases s).cmd = s.cmd := rfl
@[simp] theorem resetPhases_nz : (resetPhases s).nz = s.nz := rfl
@[simp] theorem resetPhases_smp : (resetPhases s).smp = s.smp := rfl
@[simp] theorem resetPhases_smpReady : (resetPhases s).smpReady = s.smpReady := rfl
@[simp] theorem resetPhases_rsp : (resetPhases s).rsp = s.rsp := rfl
@[simp] theorem resetPhases_rspReady : (resetPhases s).rspReady = s.rspReady := rfl

@[simp] theorem resetPhases_phase : (resetPhases s).phase = 0 := rfl
@[simp] theorem resetPhases_hph : (resetPhases s).hph = HarmonicPhases.zero := rfl

@[simp] theorem advancePhases_params (n : Nat) : (advancePhases n s).params = s.params := rfl
@[simp] theorem advancePhases_wave (n : Nat) : (advancePhases n s).wave = s.wave := rfl
@[simp] theorem advancePhases_freq (n : Nat) : (advancePhases n s).freq = s.freq := rfl
@[simp] theorem advancePhases_detune (n : Nat) : (advancePhases n s).detune = s.detune := rfl
@[simp] theorem advancePhases_harm (n : Nat) : (advancePhases n s).harm = s.harm := rfl
@[simp] theorem advancePhases_err (n : Nat) : (advancePhases n s).err = s.err := rfl
@[simp] theorem advancePhases_ecode (n : Nat) : (advancePhases n s).ecode = s.ecode := rfl
@[simp] theorem advancePhases_busy (n : Nat) : (advancePhases n s).busy = s.busy := rfl
@[simp] theorem advancePhases_rst (n : Nat) : (advancePhases n s).rst = s.rst := rfl
@[simp] theorem advancePhases_cmd (n : Nat) : (advancePhases n s).cmd = s.cmd := rfl
@[simp] theorem advancePhases_nz (n : Nat) : (advancePhases n s).nz = s.nz := rfl
@[simp] theorem advancePhases_smp (n : Nat) : (advancePhases n s).smp = s.smp := rfl
@[simp] theorem advancePhases_smpReady (n : Nat) : (advancePhases n s).smpReady = s.smpReady := rfl
@[simp] theorem advancePhases_rsp (n : Nat) : (advancePhases n s).rsp = s.rsp := rfl
@[simp] theorem advancePhases_rspReady (n : Nat) : (advancePhases n s).rspReady = s.rspReady := rfl

@[simp] theorem advancePhases_phase (n : Nat) : (advancePhases n s).phase = BitVec.ofNat 32 (s.phaseAt n) := rfl
@[simp] theorem advancePhases_hph (n : Nat) : (advancePhases n s).hph = HarmonicPhases.ofFn fun k => BitVec.ofNat 32 (s.harmonicAt k n) := rfl

@[simp] theorem takeCmd_params (rest : List CmdWord) : (takeCmd rest s).params = s.params := rfl
@[simp] theorem takeCmd_wave (rest : List CmdWord) : (takeCmd rest s).wave = s.wave := rfl
@[simp] theorem takeCmd_freq (rest : List CmdWord) : (takeCmd rest s).freq = s.freq := rfl
@[simp] theorem takeCmd_detune (rest : List CmdWord) : (takeCmd rest s).detune = s.detune := rfl
@[simp] theorem takeCmd_harm (rest : List CmdWord) : (takeCmd rest s).harm = s.harm := rfl
@[simp] theorem takeCmd_phase (rest : List CmdWord) : (takeCmd rest s).phase = s.phase := rfl
@[simp] theorem takeCmd_hph (rest : List CmdWord) : (takeCmd rest s).hph = s.hph := rfl
@[simp] theorem takeCmd_err (rest : List CmdWord) : (takeCmd rest s).err = s.err := rfl
@[simp] theorem takeCmd_ecode (rest : List CmdWord) : (takeCmd rest s).ecode = s.ecode := rfl
@[simp] theorem takeCmd_busy (rest : List CmdWord) : (takeCmd rest s).busy = s.busy := rfl
@[simp] theorem takeCmd_rst (rest : List CmdWord) : (takeCmd rest s).rst = s.rst := rfl
@[simp] theorem takeCmd_nz (rest : List CmdWord) : (takeCmd rest s).nz = s.nz := rfl
@[simp] theorem takeCmd_smp (rest : List CmdWord) : (takeCmd rest s).smp = s.smp := rfl
@[simp] theorem takeCmd_smpReady (rest : List CmdWord) : (takeCmd rest s).smpReady = s.smpReady := rfl
@[simp] theorem takeCmd_rsp (rest : List CmdWord) : (takeCmd rest s).rsp = s.rsp := rfl
@[simp] theorem takeCmd_rspReady (rest : List CmdWord) : (takeCmd rest s).rspReady = s.rspReady := rfl

@[simp] theorem takeCmd_cmd (rest : List CmdWord) : (takeCmd rest s).cmd = rest := rfl

@[simp] theorem writeReg_params (r : Reg) (v : Word) : (writeReg r v s).params = s.params := by
  cases r <;> first | rfl | (simp only [writeReg, clearStatus]; split <;> rfl)
@[simp] theorem writeReg_busy (r : Reg) (v : Word) : (writeReg r v s).busy = s.busy := by
  cases r <;> first | rfl | (simp only [writeReg, clearStatus]; split <;> rfl)
@[simp] theorem writeReg_rst (r : Reg) (v : Word) : (writeReg r v s).rst = s.rst := by
  cases r <;> first | rfl | (simp only [writeReg, clearStatus]; split <;> rfl)
@[simp] theorem writeReg_cmd (r : Reg) (v : Word) : (writeReg r v s).cmd = s.cmd := by
  cases r <;> first | rfl | (simp only [writeReg, clearStatus]; split <;> rfl)
@[simp] theorem writeReg_nz (r : Reg) (v : Word) : (writeReg r v s).nz = s.nz := by
  cases r <;> first | rfl | (simp only [writeReg, clearStatus]; split <;> rfl)
@[simp] theorem writeReg_smp (r : Reg) (v : Word) : (writeReg r v s).smp = s.smp := by
  cases r <;> first | rfl | (simp only [writeReg, clearStatus]; split <;> rfl)
@[simp] theorem writeReg_smpReady (r : Reg) (v : Word) : (writeReg r v s).smpReady = s.smpReady := by
  cases r <;> first | rfl | (simp only [writeReg, clearStatus]; split <;> rfl)
@[simp] theorem writeReg_rsp (r : Reg) (v : Word) : (writeReg r v s).rsp = s.rsp := by
  cases r <;> first | rfl | (simp only [writeReg, clearStatus]; split <;> rfl)
@[simp] theorem writeReg_rspReady (r : Reg) (v : Word) : (writeReg r v s).rspReady = s.rspReady := by
  cases r <;> first | rfl | (simp only [writeReg, clearStatus]; split <;> rfl)

end Fields

@[simp] theorem HarmonicPhases.get_zero (k : Overtone) : HarmonicPhases.zero.get k = 0 := by
  cases k <;> rfl

@[simp] theorem HarmonicPhases.get_ofFn (f : Overtone → Word) (k : Overtone) :
    (HarmonicPhases.ofFn f).get k = f k := by
  cases k <;> rfl

theorem HarmonicPhases.get_set (h : HarmonicPhases) (k j : Overtone) (v : Word) :
    (h.set k v).get j = if j = k then v else h.get j := by
  cases k <;> cases j <;> rfl

theorem HarmonicPhases.ext_get {h h' : HarmonicPhases} (H : ∀ k, h.get k = h'.get k) : h = h' := by
  cases h; cases h'
  exact HarmonicPhases.mk.injEq .. ▸ ⟨H .k2, H .k3, H .k4, H .k5, H .k6, H .k7, H .k8⟩

/-- The phase of a sample is a phase word. -/
theorem State.phaseAt_lt (s : State) (i : Nat) : s.phaseAt i < s.params.turn := Nat.mod_lt _ (turn_pos _)

theorem State.harmonicAt_lt (s : State) (k : Overtone) (i : Nat) : s.harmonicAt k i < s.params.turn :=
  Nat.mod_lt _ (turn_pos _)

@[simp] theorem toNat_ofNat_phaseAt (s : State) (i : Nat) :
    (BitVec.ofNat 32 (s.phaseAt i)).toNat = s.phaseAt i := toNat_ofNat_mod_turn _ _

@[simp] theorem toNat_ofNat_harmonicAt (s : State) (k : Overtone) (i : Nat) :
    (BitVec.ofNat 32 (s.harmonicAt k i)).toNat = s.harmonicAt k i := toNat_ofNat_mod_turn _ _

/-- The address map is one to one: HPHk is at 0x04 + k and every register is at its own address. -/
theorem regAt_addr (r : Reg) : regAt r.addr = some r := by
  cases r with
  | hph k => cases k <;> rfl
  | _ => rfl

/-- An address names a register exactly when it is below 0x10. -/
theorem regAt_eq_none_iff (a : BitVec 8) : regAt a = none ↔ addrDefined a = false := by
  revert a; decide

theorem addr_of_regAt {a : BitVec 8} {r : Reg} (h : regAt a = some r) : r.addr = a := by
  have : ∀ a : BitVec 8, ∀ r ∈ regAt a, r.addr = a := by decide
  exact this a r h

/-- The read-only registers are those at the addresses that R79 check (4) names. -/
theorem readOnly_iff {a : BitVec 8} {r : Reg} (h : regAt a = some r) :
    r.readOnly = !addrWritable a := by
  have : ∀ a : BitVec 8, ∀ r ∈ regAt a, r.readOnly = !addrWritable a := by decide
  exact this a r h

end Sys2Proof.Machine
end

