-- ==== Sys2Proof/Laws/Ops.lean ====
section
/-! SUPPORT. What each shared operation over the streams can do, said once. -/

namespace Sys2Proof.Machine

/-- Whether the host takes one more word. -/
def Readiness.Ready (r : Readiness) : Prop := r.take ≠ none

theorem respond_ready {s : State} {r : Readiness} (h : s.rspReady.take = some r) (c : BitVec 4) (d : Word) :
    respond c d s = { s with rsp := s.rsp ++ [⟨c, d⟩], rspReady := r, busy := none } := by
  simp only [respond, h]

theorem respond_held {s : State} (h : s.rspReady.take = none) (c : BitVec 4) (d : Word) :
    respond c d s = { s with busy := some (.respond ⟨c, d⟩) } := by
  simp only [respond, h]

/-- A response moves and ends the command, or is what the command waits to send. -/
theorem respond_cases (s : State) (c : BitVec 4) (d : Word) :
    (∃ r, s.rspReady.take = some r ∧
      respond c d s = { s with rsp := s.rsp ++ [⟨c, d⟩], rspReady := r, busy := none }) ∨
    (s.rspReady.take = none ∧ respond c d s = { s with busy := some (.respond ⟨c, d⟩) }) := by
  cases h : s.rspReady.take with
  | none => exact .inr ⟨rfl, respond_held h c d⟩
  | some r => exact .inl ⟨r, rfl, respond_ready h c d⟩

theorem raise_ready {s : State} {r : Readiness} (h : s.rspReady.take = some r) (e : ErrorCode) :
    raise e s = { s with
      err := true, ecode := e.code, rsp := s.rsp ++ [⟨e.code, 0⟩], rspReady := r, busy := none } :=
  respond_ready (s := recordError e s) h e.code 0

theorem raise_held {s : State} (h : s.rspReady.take = none) (e : ErrorCode) :
    raise e s = { s with err := true, ecode := e.code, busy := some (.respond ⟨e.code, 0⟩) } :=
  respond_held (s := recordError e s) h e.code 0

/-- A sample moves exactly when the host takes it, and nothing else changes. -/
theorem emit_eq_some {s t : State} {w : Word} (h : emit w s = some t) :
    ∃ r, s.smpReady.take = some r ∧ t = { s with smp := s.smp ++ [w], smpReady := r } := by
  unfold emit at h
  split at h
  · exact ⟨_, ‹_›, (Option.some.inj h).symm⟩
  · cases h

theorem emit_eq_none {s : State} {w : Word} : emit w s = none ↔ s.smpReady.take = none := by
  unfold emit; split <;> simp [*]

/-- With the noise waveform the oldest noise word is taken; with any other, none is. -/
theorem takeNoise_eq_some {s t : State} {w : Word} (h : takeNoise s = some (w, t)) :
    (effectiveWave s.wave = .noise ∧ s.nz = w :: t.nz ∧ t = { s with nz := t.nz }) ∨
    (effectiveWave s.wave ≠ .noise ∧ w = 0 ∧ t = s) := by
  unfold takeNoise at h
  split at h
  case h_1 hw =>
    split at h
    · cases h
    case h_2 nz =>
      cases h
      exact .inl ⟨hw, nz, rfl⟩
  case h_2 hw =>
    cases h
    exact .inr ⟨hw, rfl, rfl⟩

theorem takeNoise_eq_none {s : State} : takeNoise s = none ↔ effectiveWave s.wave = .noise ∧ s.nz = [] := by
  unfold takeNoise
  split
  case h_1 hw => split <;> simp [*]
  case h_2 hw => simpa using fun h => absurd h hw

/-- The next state of every command (no command stops). -/
theorem execWrreg_cases (addr : BitVec 8) (data : Word) (s : State) :
    (regAt addr = none ∧ execWrreg addr data s = .next (raise .addr s)) ∨
    (∃ r, regAt addr = some r ∧ r.readOnly = true ∧ execWrreg addr data s = .next (raise .ro s)) ∨
    (∃ r, regAt addr = some r ∧ r.readOnly = false ∧
      execWrreg addr data s = .next (respond 0 0 (writeReg r data s))) := by
  unfold execWrreg
  split
  case h_1 h => exact .inl ⟨h, rfl⟩
  case h_2 r h =>
    cases hr : r.readOnly
    · exact .inr (.inr ⟨r, h, hr, by simp⟩)
    · exact .inr (.inl ⟨r, h, hr, by simp⟩)

theorem execRdreg_cases (addr : BitVec 8) (s : State) :
    (regAt addr = none ∧ execRdreg addr s = .next (raise .addr s)) ∨
    (∃ r, regAt addr = some r ∧ execRdreg addr s = .next (respond 0 (readReg r s) s)) := by
  unfold execRdreg
  split
  case h_1 h => exact .inl ⟨h, rfl⟩
  case h_2 r h => exact .inr ⟨r, h, rfl⟩

/-- What one step can do: meet a reset request, go on with the command in progress, be idle, reject the
next command word, or execute it. -/
theorem step_cases (s : State) :
    (s.rst = true ∧ step s = .next (applyReset s)) ∨
    (s.rst = false ∧ ∃ b, s.busy = some b ∧ step s = .next (resume b s)) ∨
    (s.rst = false ∧ s.busy = none ∧ s.cmd = [] ∧ step s = .next s) ∨
    (s.rst = false ∧ s.busy = none ∧ ∃ w rest e, s.cmd = w :: rest ∧ decode w = .error e ∧
      step s = .next (raise e (takeCmd rest s))) ∨
    (s.rst = false ∧ s.busy = none ∧ ∃ w rest i, s.cmd = w :: rest ∧ decode w = .ok i ∧
      step s = exec i (takeCmd rest s)) := by
  unfold step
  cases hr : s.rst with
  | true => exact .inl ⟨rfl, by simp⟩
  | false =>
    cases hb : s.busy with
    | some b => exact .inr (.inl ⟨rfl, b, rfl, by simp⟩)
    | none =>
      cases hc : s.cmd with
      | nil => exact .inr (.inr (.inl ⟨rfl, rfl, rfl, by simp⟩))
      | cons w rest =>
        cases hd : decode w with
        | error e => exact .inr (.inr (.inr (.inl ⟨rfl, rfl, w, rest, e, rfl, hd, by simp [hd]⟩)))
        | ok i => exact .inr (.inr (.inr (.inr ⟨rfl, rfl, w, rest, i, rfl, hd, by simp [hd]⟩)))

end Sys2Proof.Machine
end

