-- ==== Sys2Proof/Laws/Generate.lean ====
section
/-! SUPPORT. Everything a run of samples can do (Machine/Generate.lean), said once. -/

namespace Sys2Proof.Machine

/-- The host's readiness after it has taken m words; none where it takes fewer. -/
def Readiness.takeMany : Nat → Readiness → Option Readiness
  | 0, r => some r
  | m + 1, r => r.take.bind (Readiness.takeMany m)

@[simp] theorem Readiness.takeMany_always (m : Nat) : Readiness.always.takeMany m = some .always := by
  induction m with
  | zero => rfl
  | succ m ih => simpa [Readiness.takeMany, Readiness.take] using ih

@[simp] theorem Readiness.takeMany_credit (m c : Nat) :
    (Readiness.credit c).takeMany m = if m ≤ c then some (.credit (c - m)) else none := by
  induction m generalizing c with
  | zero => simp [Readiness.takeMany]
  | succ m ih =>
    cases c with
    | zero => simp [Readiness.takeMany, Readiness.take]
    | succ c => simp [Readiness.takeMany, Readiness.take, ih]

/-- The noise word of the j-th sample from state s, or the unused 0. -/
def noiseAt (s : State) (j : Nat) : Word := if effectiveWave s.wave = .noise then s.nz.getD j 0 else 0

/-- The noise stream after m samples from state s. -/
def noiseAfter (s : State) (m : Nat) : List Word := if effectiveWave s.wave = .noise then s.nz.drop m else s.nz

/-- State s after m samples from sample i on, the host's readiness then being r. -/
def afterSamples (s : State) (i m : Nat) (r : Readiness) : State :=
  { s with
    smp := s.smp ++ (List.range m).map fun j => sampleWord s (i + j) (noiseAt s j)
    nz := noiseAfter s m
    smpReady := r }

/-- A sample is a function of the parameters, the operand registers and the phases alone. -/
theorem sampleWord_congr {s t : State} (hp : t.params = s.params) (hw : t.wave = s.wave)
    (hf : t.freq = s.freq) (hd : t.detune = s.detune) (hh : t.harm = s.harm) (h0 : t.phase = s.phase)
    (hk : t.hph = s.hph) (i : Nat) (nz : Word) : sampleWord t i nz = sampleWord s i nz := by
  simp only [sampleWord, State.phaseAt, State.harmonicAt, State.inc, hp, hw, hf, hd, hh, h0, hk]

@[simp] theorem afterSamples_zero (s : State) (i : Nat) : afterSamples s i 0 s.smpReady = s := by
  simp [afterSamples, noiseAfter]

theorem noiseAt_tail (s : State) (smp : List Word) (r : Readiness) (j : Nat) :
    noiseAt { s with nz := noiseAfter s 1, smp := smp, smpReady := r } j = noiseAt s (j + 1) := by
  simp only [noiseAt, noiseAfter]
  split
  · cases s.nz <;> simp
  · rfl

theorem noiseAfter_tail (s : State) (smp : List Word) (r : Readiness) (m : Nat) :
    noiseAfter { s with nz := noiseAfter s 1, smp := smp, smpReady := r } m = noiseAfter s (m + 1) := by
  simp only [noiseAfter]
  split
  · rw [List.drop_drop, Nat.add_comm]
  · rfl

theorem sampleWord_tail (s : State) (nz smp : List Word) (r : Readiness) (i : Nat) (w : Word) :
    sampleWord { s with nz := nz, smp := smp, smpReady := r } i w = sampleWord s i w := rfl

/-- Either way of taking a sample's noise word, in one form. -/
theorem takeNoise_eq {s t : State} {w : Word} (h : takeNoise s = some (w, t)) :
    w = noiseAt s 0 ∧ t = { s with nz := noiseAfter s 1 } ∧
      (effectiveWave s.wave = .noise → 1 ≤ s.nz.length) := by
  obtain ⟨hw, hz, e⟩ | ⟨hw, rfl, rfl⟩ := takeNoise_eq_some h
  · refine ⟨by simp [noiseAt, hw, hz], ?_, fun _ => by simp [hz]⟩
    rw [e]; simp [noiseAfter, hw, hz]
  · exact ⟨by simp [noiseAt, hw], by simp [noiseAfter, hw], fun h => absurd h hw⟩

/-- Taking one sample and then m more is taking m + 1. -/
theorem afterSamples_succ (s : State) (i m : Nat) (q r : Readiness) :
    afterSamples { s with
        nz := noiseAfter s 1, smp := s.smp ++ [sampleWord s i (noiseAt s 0)], smpReady := q } (i + 1) m r =
      afterSamples s i (m + 1) r := by
  have hl : ((List.range m).map fun j => sampleWord s (i + 1 + j) (noiseAt s (j + 1))) =
      (List.range m).map fun j => sampleWord s (i + (j + 1)) (noiseAt s (j + 1)) :=
    List.map_congr_left fun j _ => by rw [Nat.add_right_comm, Nat.add_assoc]
  simp only [afterSamples, noiseAt_tail, noiseAfter_tail, List.range_succ_eq_map, List.map_cons,
    List.map_map, Function.comp_def, Nat.succ_eq_add_one, List.append_assoc, List.singleton_append,
    Nat.add_zero, ← hl]
  rfl

/-- What the last k samples of a `GEN n` can do: m of them move, and then the command ends (m = k), or
waits for the noise word of the next, or waits for the host to take the next. -/
theorem genFrom_cases (n : Word) (k : Nat) (s : State) (hk : k ≤ n.toNat) :
    ∃ m r, m ≤ k ∧ s.smpReady.takeMany m = some r ∧
      (effectiveWave s.wave = .noise → m ≤ s.nz.length) ∧
      ((m = k ∧ genFrom n k s = respond 0 0 (advancePhases n.toNat (afterSamples s (n.toNat - k) m r))) ∨
       (m < k ∧ effectiveWave s.wave = .noise ∧ s.nz.length = m ∧
          genFrom n k s = { afterSamples s (n.toNat - k) m r with
            busy := some (.gen n (n.toNat - k + m) none) }) ∨
       (m < k ∧ (effectiveWave s.wave = .noise → m < s.nz.length) ∧ r.take = none ∧
          genFrom n k s = { afterSamples s (n.toNat - k) m r with
            nz := noiseAfter s (m + 1)
            busy := some (.gen n (n.toNat - k + m)
              (some (sampleWord s (n.toNat - k + m) (noiseAt s m)))) })) := by
  induction k generalizing s with
  | zero => exact ⟨0, s.smpReady, le_rfl, rfl, by simp, .inl ⟨rfl, by simp [genFrom]⟩⟩
  | succ k ih =>
    have hi : n.toNat - k = n.toNat - (k + 1) + 1 := by omega
    have hi' : ∀ m, n.toNat - (k + 1) + 1 + m = n.toNat - (k + 1) + (m + 1) := by omega
    simp only [genFrom]
    cases h1 : takeNoise s with
    | none =>
      obtain ⟨hw, hz⟩ := takeNoise_eq_none.1 h1
      exact ⟨0, s.smpReady, by omega, rfl, by simp, .inr (.inl ⟨by omega, hw, by simp [hz], by simp⟩)⟩
    | some q =>
      obtain ⟨nz, s₁⟩ := q
      obtain ⟨rfl, rfl, hlen⟩ := takeNoise_eq h1
      have hsw : sampleWord { s with nz := noiseAfter s 1 } (n.toNat - (k + 1)) (noiseAt s 0) =
          sampleWord s (n.toNat - (k + 1)) (noiseAt s 0) := sampleWord_congr rfl rfl rfl rfl rfl rfl rfl _ _
      simp only [hsw]
      cases h2 : emit (sampleWord s (n.toNat - (k + 1)) (noiseAt s 0)) { s with nz := noiseAfter s 1 } with
      | none =>
        exact ⟨0, s.smpReady, by omega, rfl, by simp, .inr (.inr ⟨by omega, hlen, (emit_eq_none (s := { s with nz := noiseAfter s 1 })).1 h2, by simp⟩)⟩
      | some s₂ =>
        obtain ⟨q, hq, rfl⟩ := emit_eq_some h2
        obtain ⟨m, r, hm, hr, hn, hcase⟩ := ih { s with
          nz := noiseAfter s 1, smp := s.smp ++ [sampleWord s (n.toNat - (k + 1)) (noiseAt s 0)],
          smpReady := q } (by omega)
        have hl : effectiveWave s.wave = .noise → (noiseAfter s 1).length + 1 = s.nz.length := by
          intro hw; have := hlen hw; simp only [noiseAfter, hw, if_true, List.length_drop]; omega
        simp only [hi, afterSamples_succ, noiseAt_tail, noiseAfter_tail, sampleWord_tail, hi'] at hcase
        refine ⟨m + 1, r, by omega, by simp only [Readiness.takeMany]; rw [hq]; exact hr,
          fun hw => by have := hn hw; have := hl hw; dsimp only at *; omega, ?_⟩
        obtain ⟨h, hg⟩ | ⟨h, hw, hz, hg⟩ | ⟨h, hz, ht, hg⟩ := hcase
        · exact .inl ⟨by omega, hg⟩
        · exact .inr (.inl ⟨by omega, hw, by have := hl hw; dsimp only at *; omega, hg⟩)
        · refine .inr (.inr ⟨by omega, fun hw => by have := hl hw; have := hz hw; dsimp only at *; omega, ht, hg⟩)

theorem respond_busy (s : State) (b : Option Busy) (c : BitVec 4) (d : Word) :
    respond c d { s with busy := b } = respond c d s := by
  simp only [respond]

/-- A run does not depend on what was in progress before it. -/
theorem genFrom_busy (n : Word) (k : Nat) (s : State) (b : Option Busy) :
    genFrom n k { s with busy := b } = genFrom n k s := by
  induction k generalizing s with
  | zero => exact respond_busy (advancePhases n.toNat s) b 0 0
  | succ k ih =>
    have hn : takeNoise { s with busy := b } = (takeNoise s).map fun x => (x.1, { x.2 with busy := b }) := by
      simp only [takeNoise]; split
      · split <;> rfl
      · rfl
    have he : ∀ (w : Word) (t : State), emit w { t with busy := b } = (emit w t).map fun x => { x with busy := b } := by
      intro w t; simp only [emit]; split <;> rfl
    simp only [genFrom, hn]
    cases takeNoise s with
    | none => rfl
    | some q =>
      obtain ⟨nz, s₁⟩ := q
      simp only [Option.map_some, he]
      rw [show sampleWord { s₁ with busy := b } (n.toNat - (k + 1)) nz = sampleWord s₁ (n.toNat - (k + 1)) nz from rfl]
      cases emit (sampleWord s₁ (n.toNat - (k + 1)) nz) s₁ with
      | none => rfl
      | some s₂ => exact ih s₂

/-- A run whose first m samples can all move goes on from the state after them. -/
theorem genFrom_add (n : Word) (m k : Nat) (s : State) (r : Readiness) (hk : m + k ≤ n.toNat)
    (hr : s.smpReady.takeMany m = some r) (hn : effectiveWave s.wave = .noise → m ≤ s.nz.length) :
    genFrom n (m + k) s = genFrom n k (afterSamples s (n.toNat - (m + k)) m r) := by
  induction m generalizing s with
  | zero =>
    obtain rfl : s.smpReady = r := Option.some.inj hr
    simp
  | succ m ih =>
    simp only [Readiness.takeMany, Option.bind_eq_some_iff] at hr
    obtain ⟨q, hq, hr⟩ := hr
    have hi : n.toNat - (m + k) = n.toNat - (m + k + 1) + 1 := by omega
    have h1 : takeNoise s = some (noiseAt s 0, { s with nz := noiseAfter s 1 }) := by
      unfold takeNoise noiseAt noiseAfter
      split
      case h_1 hw =>
        have := hn hw
        rw [if_pos hw, if_pos hw]
        split
        · simp_all
        · simp_all
      case h_2 hw => rw [if_neg (fun h => hw h), if_neg (fun h => hw h)]
    rw [show m + 1 + k = m + k + 1 by omega]
    simp only [genFrom, h1]
    rw [show sampleWord { s with nz := noiseAfter s 1 } (n.toNat - (m + k + 1)) (noiseAt s 0) =
      sampleWord s (n.toNat - (m + k + 1)) (noiseAt s 0) from rfl]
    simp only [emit, hq]
    rw [ih _ (by omega) hr (by
      intro hw; have := hn hw
      simp only [noiseAfter] at hw ⊢; rw [if_pos hw, List.length_drop]; omega), hi, afterSamples_succ]
end Sys2Proof.Machine
end

