-- ==== Sys2Proof/Laws/PerInstr.lean ====
section
/-! SUPPORT. Statements made of every command as syntax, one lemma per constructor. -/

namespace Sys2Proof.Laws.EncodesItsRow

/-- The word of a command spells the command's row of the opcode table (30_encoding.md R76). -/
def Statement (i : Instr) : Prop := i.row ∈ opcodeTable ∧ i.row.spells (encode i) = true

theorem nop : Statement .nop :=
  ⟨by simp [opcodeTable], by rw [(spells_iff_fields _).1]; simp [encode]⟩

theorem wrreg (addr : BitVec 8) (data : Word) : Statement (.wrreg addr data) :=
  ⟨by simp [opcodeTable, Instr.row], (spells_iff_fields _).2.1.2 (by simp [encode])⟩

theorem rdreg (addr : BitVec 8) : Statement (.rdreg addr) :=
  ⟨by simp [opcodeTable, Instr.row], (spells_iff_fields _).2.2.1.2 (by simp [encode])⟩

theorem gen (n : Word) : Statement (.gen n) :=
  ⟨by simp [opcodeTable, Instr.row], (spells_iff_fields _).2.2.2.1.2 (by simp [encode])⟩

theorem rstph : Statement .rstph :=
  ⟨by simp [opcodeTable], by rw [(spells_iff_fields _).2.2.2.2]; simp [encode]⟩

end Sys2Proof.Laws.EncodesItsRow
end

