-- ==== Sys2Proof/Laws/Sine.lean ====
section
/-! SUPPORT. The comparisons of Machine/Sine.lean are those of the real cosine, and `sinFloor` is the
floor it is named for. -/

namespace Sys2Proof.Machine

/-- What an `Ordering` says of two reals. -/
def OrdReal (o : Ordering) (x y : ℝ) : Prop :=
  (o = .lt ∧ x < y) ∨ (o = .eq ∧ x = y) ∨ (o = .gt ∧ y < x)

theorem OrdReal.swap_sq {o : Ordering} {x r : ℝ} (hx : x < 0) (hr : r < 0)
    (h : OrdReal o (2 * x ^ 2 - 1) (2 * r ^ 2 - 1)) : OrdReal o.swap x r := by
  rcases h with ⟨rfl, h⟩ | ⟨rfl, h⟩ | ⟨rfl, h⟩
  · exact .inr (.inr ⟨rfl, by nlinarith⟩)
  · exact .inr (.inl ⟨rfl, by nlinarith⟩)
  · exact .inl ⟨rfl, by nlinarith⟩

theorem OrdReal.of_sq {o : Ordering} {x r : ℝ} (hx : 0 ≤ x) (hr : 0 ≤ r)
    (h : OrdReal o (2 * x ^ 2 - 1) (2 * r ^ 2 - 1)) : OrdReal o x r := by
  rcases h with ⟨rfl, h⟩ | ⟨rfl, h⟩ | ⟨rfl, h⟩
  · exact .inl ⟨rfl, by nlinarith⟩
  · exact .inr (.inl ⟨rfl, by nlinarith⟩)
  · exact .inr (.inr ⟨rfl, by nlinarith⟩)

theorem ordReal_compare (a b : Rat) : OrdReal (compare a b) (a : ℝ) (b : ℝ) := by
  rcases lt_trichotomy a b with h | h | h
  · exact .inl ⟨compare_lt_iff_lt.2 h, by exact_mod_cast h⟩
  · exact .inr (.inl ⟨compare_eq_iff_eq.2 h, by exact_mod_cast h⟩)
  · exact .inr (.inr ⟨compare_gt_iff_gt.2 h, by exact_mod_cast h⟩)

/-- The angle of a in units of 2^-b turn. -/
noncomputable def angle (b a : Nat) : ℝ := 2 * Real.pi * a / 2 ^ b

theorem cos_angle_double (b a : Nat) :
    Real.cos (angle (b + 1) a) = 2 * Real.cos (angle (b + 2) a) ^ 2 - 1 := by
  rw [← Real.cos_two_mul]; congr 1; simp only [angle, pow_succ]; ring

theorem cos_angle_reflect (b a : Nat) (h : a ≤ 2 ^ (b + 1)) :
    Real.cos (angle (b + 1) (2 ^ (b + 1) - a)) = Real.cos (angle (b + 1) a) := by
  rw [← Real.cos_two_pi_sub (angle (b + 1) a)]; congr 1
  simp only [angle]; rw [Nat.cast_sub h]; push_cast; field_simp

theorem cos_angle_nonneg (b a : Nat) (h : a ≤ 2 ^ b) : 0 ≤ Real.cos (angle (b + 2) a) := by
  have ha : (a : ℝ) ≤ 2 ^ b := by exact_mod_cast h
  have e : angle (b + 2) a = Real.pi / 2 * (a / 2 ^ b) := by simp only [angle, pow_succ]; field_simp
  have h1 : (a : ℝ) / 2 ^ b ≤ 1 := by rw [div_le_one (by positivity)]; exact ha
  have h0 : 0 ≤ (a : ℝ) / 2 ^ b := by positivity
  apply Real.cos_nonneg_of_neg_pi_div_two_le_of_le <;> rw [e] <;> nlinarith [Real.pi_pos]

theorem cos_angle_neg (b a : Nat) (h : 2 ^ b < a) (h' : a ≤ 2 ^ (b + 1)) :
    Real.cos (angle (b + 2) a) < 0 := by
  have ha : (2 : ℝ) ^ b < a := by exact_mod_cast h
  have ha' : (a : ℝ) ≤ 2 ^ b * 2 := by rw [pow_succ] at h'; exact_mod_cast h'
  have e : angle (b + 2) a = Real.pi / 2 * (a / 2 ^ b) := by simp only [angle, pow_succ]; field_simp
  have h1 : (a : ℝ) / 2 ^ b ≤ 2 := by rw [div_le_iff₀ (by positivity)]; linarith
  have h0 : 1 < (a : ℝ) / 2 ^ b := by rw [lt_div_iff₀ (by positivity)]; linarith
  apply Real.cos_neg_of_pi_div_two_lt_of_lt <;> rw [e] <;> nlinarith [Real.pi_pos]

theorem cosCmpExact_spec (b a : Nat) (r : Rat) (ha : 2 * a ≤ 2 ^ b) :
    OrdReal (cosCmpExact b a r) (Real.cos (angle b a)) r := by
  fun_induction cosCmpExact b a r with
  | case1 a r =>
    have : a = 0 := by simp at ha; omega
    subst this; simpa [angle] using ordReal_compare 1 r
  | case2 a r =>
    have : a = 0 ∨ a = 1 := by simp at ha; omega
    rcases this with rfl | rfl
    · simpa [angle] using ordReal_compare 1 r
    · simpa [angle, mul_div_assoc] using ordReal_compare (-1) r
  | case3 => simpa [angle] using ordReal_compare 1 _
  | case4 b a r _ h =>
    exact .inl ⟨rfl, (Real.cos_le_one _).trans_lt (by exact_mod_cast h)⟩
  | case5 b a r _ _ h =>
    exact .inr (.inr ⟨rfl, lt_of_lt_of_le (b := (-1 : ℝ)) (by exact_mod_cast h) (Real.neg_one_le_cos _)⟩)
  | case6 b a r _ _ _ hq h =>
    exact .inr (.inr ⟨rfl, lt_of_lt_of_le (b := (0 : ℝ)) (by exact_mod_cast h) (cos_angle_nonneg b a hq)⟩)
  | case7 b a r _ _ _ hq h ih =>
    have ih := ih (by simp only [pow_succ]; omega)
    rw [cos_angle_double] at ih
    refine OrdReal.of_sq (cos_angle_nonneg b a hq) (by exact_mod_cast not_lt.1 h) ?_
    convert ih using 1; push_cast; ring
  | case8 b a r _ _ _ hq h =>
    exact .inl ⟨rfl, lt_of_lt_of_le (cos_angle_neg b a (not_le.1 hq) (by simp only [pow_succ] at ha ⊢; omega)) (by exact_mod_cast h)⟩
  | case9 b a r _ _ _ hq h ih =>
    have ha' : a ≤ 2 ^ (b + 1) := by simp only [pow_succ] at ha ⊢; omega
    have ih := ih (by simp only [pow_succ] at ha ⊢; omega)
    rw [cos_angle_reflect b a ha', cos_angle_double] at ih
    refine OrdReal.swap_sq (cos_angle_neg b a (not_le.1 hq) ha') (by exact_mod_cast not_le.1 h) ?_
    convert ih using 1; push_cast; ring

theorem fastOne_eq : fastOne = 2 ^ 128 := by decide +kernel
theorem fastOne_pos : (0 : ℝ) < (fastOne : ℝ) := by rw [fastOne_eq]; norm_num

/-- lo ≤ r ≤ hi, in the scale of `fastOne`. -/
def Within (lo hi : Int) (r : ℝ) : Prop := (lo : ℝ) ≤ r * fastOne ∧ r * fastOne ≤ hi

theorem doubleDown_le (x : Int) (r : ℝ) (h : (x : ℝ) ^ 2 ≤ (r * fastOne) ^ 2) :
    (doubleDown x : ℝ) ≤ (2 * r ^ 2 - 1) * fastOne := by
  have hp := fastOne_pos
  have hz : fastOne ≠ 0 := by rw [fastOne_eq]; norm_num
  have hd : ((2 * x * x / fastOne : Int) : ℝ) * fastOne ≤ 2 * x * x := by
    exact_mod_cast Int.ediv_mul_le (2 * x * x) hz
  have : ((2 * x * x / fastOne : Int) : ℝ) ≤ 2 * r ^ 2 * fastOne := by
    rw [← mul_le_mul_iff_left₀ hp]; nlinarith
  simp only [doubleDown]; push_cast at this ⊢; linarith

theorem le_doubleUp (x : Int) (r : ℝ) (h : (r * fastOne) ^ 2 ≤ (x : ℝ) ^ 2) :
    (2 * r ^ 2 - 1) * fastOne ≤ (doubleUp x : ℝ) := by
  have hp := fastOne_pos
  have hz : fastOne ≠ 0 := by rw [fastOne_eq]; norm_num
  have hd : ((-(2 * x * x) / fastOne : Int) : ℝ) * fastOne ≤ -(2 * x * x) := by
    exact_mod_cast Int.ediv_mul_le (-(2 * x * x)) hz
  have : ((-(2 * x * x) / fastOne : Int) : ℝ) ≤ -(2 * r ^ 2 * fastOne) := by
    rw [← mul_le_mul_iff_left₀ hp]; nlinarith
  simp only [doubleUp]; push_cast at this ⊢; linarith

theorem cmpInterval_spec {v lo hi : Int} {o : Ordering} {x r : ℝ} (hx : (v : ℝ) = x * fastOne)
    (hw : Within lo hi r) (h : cmpInterval v lo hi = some o) : OrdReal o x r := by
  have hp := fastOne_pos
  obtain ⟨hl, hh⟩ := hw
  unfold cmpInterval at h
  split at h
  · obtain rfl := Option.some.inj h
    have : (hi : ℝ) < v := by exact_mod_cast ‹hi < v›
    exact .inr (.inr ⟨rfl, lt_of_mul_lt_mul_right (by linarith) hp.le⟩)
  split at h
  · obtain rfl := Option.some.inj h
    have : (v : ℝ) < lo := by exact_mod_cast ‹v < lo›
    exact .inl ⟨rfl, lt_of_mul_lt_mul_right (by linarith) hp.le⟩
  split at h
  · obtain rfl := Option.some.inj h
    have : v = lo := by omega
    subst this
    have : (v : ℝ) = hi := by exact_mod_cast ‹v = hi›
    exact .inr (.inl ⟨rfl, mul_right_cancel₀ hp.ne' (by linarith)⟩)
  · cases h

theorem Within.double_nonneg {lo hi : Int} {r : ℝ} (h : Within lo hi r) (h0 : 0 ≤ lo) :
    0 ≤ r ∧ Within (doubleDown lo) (doubleUp hi) (2 * r ^ 2 - 1) := by
  have hp := fastOne_pos
  have hlo : (0 : ℝ) ≤ lo := by exact_mod_cast h0
  have hr : 0 ≤ r * fastOne := hlo.trans h.1
  exact ⟨nonneg_of_mul_nonneg_left hr hp, doubleDown_le _ _ (pow_le_pow_left₀ hlo h.1 2),
    le_doubleUp _ _ (pow_le_pow_left₀ hr h.2 2)⟩

theorem Within.double_neg {lo hi : Int} {r : ℝ} (h : Within lo hi r) (h0 : hi < 0) :
    r < 0 ∧ Within (doubleDown hi) (doubleUp lo) (2 * r ^ 2 - 1) := by
  have hp := fastOne_pos
  have hhi : (hi : ℝ) < 0 := by exact_mod_cast h0
  have hr : r * fastOne < 0 := h.2.trans_lt hhi
  exact ⟨by nlinarith, doubleDown_le _ _ (by nlinarith [h.2]), le_doubleUp _ _ (by nlinarith [h.1])⟩

theorem cosCmpFast_spec (b a : Nat) (lo hi : Int) (r : ℝ) (ha : 2 * a ≤ 2 ^ b) (hw : Within lo hi r)
    (o : Ordering) (h : cosCmpFast b a lo hi = some o) : OrdReal o (Real.cos (angle b a)) r := by
  have hp := fastOne_pos
  fun_induction cosCmpFast b a lo hi generalizing r o with
  | case1 a lo hi =>
    have : a = 0 := by simp at ha; omega
    subst this; exact cmpInterval_spec (by simp [angle]) hw h
  | case2 a lo hi =>
    have : a = 0 ∨ a = 1 := by simp at ha; omega
    rcases this with rfl | rfl
    · exact cmpInterval_spec (by simp [angle]) hw h
    · exact cmpInterval_spec (by simp [angle]) hw h
  | case3 => exact cmpInterval_spec (by simp [angle]) hw h
  | case4 b a lo hi _ h1 =>
    obtain rfl := Option.some.inj h
    have : (fastOne : ℝ) < lo := by exact_mod_cast h1
    have : 1 < r := lt_of_mul_lt_mul_right (by linarith [hw.1]) hp.le
    exact .inl ⟨rfl, (Real.cos_le_one _).trans_lt this⟩
  | case5 b a lo hi _ _ h1 =>
    obtain rfl := Option.some.inj h
    have : (hi : ℝ) < -fastOne := by exact_mod_cast h1
    have : r < -1 := lt_of_mul_lt_mul_right (by linarith [hw.2]) hp.le
    exact .inr (.inr ⟨rfl, this.trans_le (Real.neg_one_le_cos _)⟩)
  | case6 b a lo hi _ _ _ hq h1 =>
    obtain rfl := Option.some.inj h
    exact .inr (.inr ⟨rfl, (hw.double_neg h1).1.trans_le (cos_angle_nonneg b a hq)⟩)
  | case7 => cases h
  | case8 b a lo hi _ _ _ hq _ h1 ih =>
    obtain ⟨hr, hw'⟩ := hw.double_nonneg (not_lt.1 h1)
    have ih := ih _ (by simp only [pow_succ]; omega) hw' o h
    rw [cos_angle_double] at ih
    exact OrdReal.of_sq (cos_angle_nonneg b a hq) hr ih
  | case9 b a lo hi _ _ _ hq h1 =>
    obtain rfl := Option.some.inj h
    exact .inl ⟨rfl, (cos_angle_neg b a (not_le.1 hq) (by simp only [pow_succ] at ha ⊢; omega)).trans_le
      (hw.double_nonneg h1).1⟩
  | case10 => cases h
  | case11 b a lo hi _ _ _ hq _ h1 ih =>
    obtain ⟨o', ho', rfl⟩ := Option.map_eq_some_iff.1 h
    have ha' : a ≤ 2 ^ (b + 1) := by simp only [pow_succ] at ha ⊢; omega
    obtain ⟨hr, hw'⟩ := hw.double_neg (not_le.1 h1)
    have ih := ih _ (by simp only [pow_succ] at ha ⊢; omega) hw' o' ho'
    rw [cos_angle_reflect b a ha', cos_angle_double] at ih
    exact OrdReal.swap_sq (cos_angle_neg b a (not_le.1 hq) ha') hr ih

theorem cosCmp_spec (b a c e : Nat) (ha : 2 * a ≤ 2 ^ b) (he : e ≤ 128) :
    OrdReal (cosCmp b a c e) (Real.cos (angle b a)) (c / 2 ^ e) := by
  have hw : Within (c * 2 ^ (128 - e) : Nat) (c * 2 ^ (128 - e) : Nat) (c / 2 ^ e : ℝ) := by
    have : (c / 2 ^ e : ℝ) * fastOne = ((c * 2 ^ (128 - e) : Nat) : Int) := by
      have h2 : (fastOne : ℝ) = 2 ^ e * 2 ^ (128 - e) := by
        rw [← pow_add, Nat.add_sub_cancel' he, fastOne_eq]; norm_num
      rw [h2]; push_cast; field_simp
    exact ⟨this.ge, this.le⟩
  unfold cosCmp
  split
  case h_1 o ho => exact cosCmpFast_spec _ _ _ _ _ ha hw o ho
  case h_2 =>
    have := cosCmpExact_spec b a (mkRat c (2 ^ e)) ha
    rwa [show ((mkRat c (2 ^ e) : Rat) : ℝ) = (c : ℝ) / 2 ^ e by
      rw [Rat.mkRat_eq_div]; push_cast; ring] at this

/-- sin(2π φ / M). -/
theorem sin_eq_cos_angle (p : Params) (φ : Nat) (h : φ ≤ p.quarterTurn) :
    Real.cos (angle p.phaseW (p.quarterTurn - φ)) = Real.sin (2 * Real.pi * φ / p.turn) := by
  rw [← Real.cos_pi_div_two_sub]; congr 1
  have hP := p.phaseW_legal.1
  have : (2 : ℝ) ^ p.phaseW = 4 * 2 ^ (p.phaseW - 2) := by
    rw [show (4 : ℝ) = 2 ^ 2 by norm_num, ← pow_add]; congr 1; omega
  simp only [angle, Params.turn]
  rw [Nat.cast_sub h]; push_cast [Params.quarterTurn]; rw [this]; field_simp; ring

theorem sinAtLeast_iff (p : Params) (φ c : Nat) (h : φ ≤ p.quarterTurn) :
    sinAtLeast p φ c = true ↔ (c : ℝ) ≤ 2 * p.unit * Real.sin (2 * Real.pi * φ / p.turn) := by
  have hF : p.frac + 1 ≤ 128 := by have := p.outW_legal; omega
  have hP := p.phaseW_legal.1
  have hq : 2 * (p.quarterTurn - φ) ≤ 2 ^ p.phaseW := by
    have := turn_eq_four_quarters p; simp only [Params.turn] at this; omega
  have key := cosCmp_spec p.phaseW (p.quarterTurn - φ) c (p.frac + 1) hq hF
  rw [sin_eq_cos_angle p φ h] at key
  have hu : (2 : ℝ) * p.unit = 2 ^ (p.frac + 1) := by push_cast [Params.unit]; ring
  have hpos : (0 : ℝ) < 2 ^ (p.frac + 1) := by positivity
  rw [hu, sinAtLeast, ← div_le_iff₀' hpos]
  rcases key with ⟨h, h'⟩ | ⟨h, h'⟩ | ⟨h, h'⟩ <;> rw [h] <;> simp
  · exact h'
  · exact h'.ge
  · exact h'.le

/-- `sinFloor` is the floor it is named for. -/
theorem sinFloor_spec (p : Params) (φ : Nat) (h : φ ≤ p.quarterTurn) :
    (sinFloor p φ : ℝ) ≤ 2 * p.unit * Real.sin (2 * Real.pi * φ / p.turn) ∧
      2 * p.unit * Real.sin (2 * Real.pi * φ / p.turn) < sinFloor p φ + 1 := by
  have both : sinAtLeast p φ (sinFloor p φ) = true ∧ sinAtLeast p φ (sinFloor p φ + 1) = false := by
    unfold sinFloor
    dsimp only
    split
    case isTrue hg => simpa using hg
    case isFalse =>
      refine greatest_spec _ _ _ ?_ ?_
      · rw [sinAtLeast_iff p φ 0 h]
        have : 0 ≤ Real.sin (2 * Real.pi * φ / p.turn) := by
          rw [← sin_eq_cos_angle p φ h, show p.phaseW = p.phaseW - 2 + 2 by have := p.phaseW_legal; omega]
          exact cos_angle_nonneg _ _ (Nat.sub_le _ _)
        push_cast; positivity
      · rw [← Bool.not_eq_true, sinAtLeast_iff p φ _ h, not_le]
        have := Real.sin_le_one (2 * Real.pi * φ / p.turn)
        have hu : (0 : ℝ) < p.unit := by simp [Params.unit]
        push_cast [Params.unit] at *
        rw [pow_add]; nlinarith
  rw [sinAtLeast_iff p φ _ h, ← Bool.not_eq_true, sinAtLeast_iff p φ _ h, not_le] at both
  simpa using both

/-- The sine of a phase word is rational only at the quarter points (R102). -/
theorem quarter_of_rational (p : Params) (θ : Nat)
    (h : ¬Irrational (Real.sin (2 * Real.pi * θ / 2 ^ p.phaseW))) : 2 ^ p.phaseW ∣ 4 * θ := by
  obtain ⟨x, hx⟩ := not_not.1 h
  set a : ℝ := 2 * Real.pi * θ / 2 ^ p.phaseW with ha
  have hang : a = ((2 * θ / 2 ^ p.phaseW : ℚ) : ℝ) * Real.pi := by rw [ha]; push_cast; ring
  have hn := niven_sin ⟨_, hang⟩ ⟨x, hx.symm⟩
  have h2 : Real.cos (2 * a) = 1 - 2 * Real.sin a ^ 2 := by rw [Real.cos_two_mul, Real.cos_sq']; ring
  have h6 : Real.cos (3 * (2 * a)) = 4 * Real.cos (2 * a) ^ 3 - 3 * Real.cos (2 * a) := Real.cos_three_mul _
  have h12 : Real.cos (2 * (3 * (2 * a))) = 1 := by
    rw [Real.cos_two_mul, h6, h2]
    simp only [Set.mem_insert_iff, Set.mem_singleton_iff] at hn
    rcases hn with h | h | h | h | h <;> rw [h] <;> norm_num
  obtain ⟨n, hn⟩ := (Real.cos_eq_one_iff _).1 h12
  have hM : (0 : ℝ) < 2 ^ p.phaseW := by positivity
  have : (n : ℝ) * 2 ^ p.phaseW = 12 * θ := by
    rw [ha] at hn; field_simp at hn
    have hpi := Real.pi_pos
    nlinarith
  have : n * 2 ^ p.phaseW = 12 * θ := by exact_mod_cast this
  have hd : ((2 ^ p.phaseW : Nat) : Int) ∣ ((3 * (4 * θ) : Nat) : Int) := ⟨n, by push_cast; linarith⟩
  exact (Nat.Coprime.pow_left _ (by norm_num : Nat.Coprime 2 3)).dvd_of_dvd_mul_left
    (Int.natCast_dvd_natCast.1 hd)

end Sys2Proof.Machine
end

