-- ==== Sys2Proof/Laws/Tuning.lean ====
section
/-! SUPPORT. The integer comparisons of Machine/Tuning.lean are those of the real number y of
40_generate.md R101, and `twiceYFloor` is the floor it is named for. -/

namespace Sys2Proof.Machine

theorem pow3072_eq (x : Nat) : pow3072 x = x ^ 3072 := by
  have h : ∀ n y : Nat, Nat.repeat (fun y => y * y) n y = y ^ 2 ^ n := by
    intro n y
    induction n with
    | zero => simp [Nat.repeat]
    | succ n ih => rw [Nat.repeat, ih, ← pow_two, ← pow_mul, pow_succ]
  rw [pow3072, h, show x * x * x = x ^ 3 by ring, ← pow_mul, show 3 * 2 ^ 10 = 3072 by norm_num]

/-- y of R101: (FREQ / 2^16) · 2^(d / 3072) · M / SAMPLE_RATE. -/
noncomputable def tuneReal (p : Params) (freq : Word) (d : Int) : ℝ :=
  freq.toNat / 2 ^ 16 * (2 : ℝ) ^ ((d : ℝ) / 3072) * p.turn / p.sampleRate

theorem rate_pos (p : Params) : (0 : ℝ) < p.sampleRate := by exact_mod_cast p.rate_legal.1

theorem octaves_pow (d : Int) : ((2 : ℝ) ^ ((d : ℝ) / 3072)) ^ 3072 * 2 ^ (-d).toNat = 2 ^ d.toNat := by
  rw [← Real.rpow_natCast ((2 : ℝ) ^ ((d : ℝ) / 3072)) 3072, ← Real.rpow_mul (by norm_num),
    ← Real.rpow_natCast 2 (-d).toNat, ← Real.rpow_natCast 2 d.toNat, ← Real.rpow_add (by norm_num)]
  congr 1
  have : (d.toNat : ℝ) - (-d).toNat = d := by exact_mod_cast Int.toNat_sub_toNat_neg d
  push_cast; linarith

theorem powers_of (p : Params) (freq : Word) (d : Int) (c : Nat) :
    (boundPower p d c : ℝ) = (c * (2 ^ 16 * p.sampleRate)) ^ 3072 * 2 ^ (-d).toNat ∧
    (twiceYPower p freq d : ℝ) =
      (2 * tuneReal p freq d * (2 ^ 16 * p.sampleRate)) ^ 3072 * 2 ^ (-d).toNat := by
  have hr := (rate_pos p).ne'
  constructor
  · rw [boundPower, pow3072_eq, Nat.cast_mul, Nat.cast_pow, Nat.cast_pow, Nat.cast_mul, Nat.cast_mul]
    push_cast; rw [mul_assoc (c : ℝ)]; norm_num
  · rw [twiceYPower, pow3072_eq, Nat.cast_mul, Nat.cast_pow, Nat.cast_pow, Nat.cast_mul, Nat.cast_mul,
      Nat.cast_ofNat, ← octaves_pow d, ← mul_assoc, ← mul_pow]
    congr 2
    simp only [tuneReal]; field_simp

theorem tuneReal_nonneg (p : Params) (freq : Word) (d : Int) : 0 ≤ tuneReal p freq d := by
  have := rate_pos p
  simp only [tuneReal]; positivity

theorem boundPower_le_iff (p : Params) (freq : Word) (d : Int) (c : Nat) :
    boundPower p d c ≤ twiceYPower p freq d ↔ (c : ℝ) ≤ 2 * tuneReal p freq d := by
  have hs : (0 : ℝ) < 2 ^ 16 * p.sampleRate := mul_pos (by norm_num) (rate_pos p)
  obtain ⟨h1, h2⟩ := powers_of p freq d c
  have := tuneReal_nonneg p freq d
  rw [← Nat.cast_le (α := ℝ), h1, h2, mul_le_mul_iff_left₀ (by positivity),
    pow_le_pow_iff_left₀ (by positivity) (by positivity) (by decide), mul_le_mul_iff_left₀ hs]

theorem twiceYIs_iff (p : Params) (freq : Word) (d : Int) (c : Nat) :
    twiceYIs p freq d c = true ↔ (c : ℝ) = 2 * tuneReal p freq d := by
  have hs : (0 : ℝ) < 2 ^ 16 * p.sampleRate := mul_pos (by norm_num) (rate_pos p)
  obtain ⟨h1, h2⟩ := powers_of p freq d c
  have := tuneReal_nonneg p freq d
  rw [twiceYIs, decide_eq_true_iff, ← Nat.cast_inj (R := ℝ), h1, h2, mul_left_inj' (by positivity),
    pow_left_inj₀ (by positivity) (by positivity) (by decide), mul_left_inj' hs.ne']

theorem twice_tuneReal_lt (p : Params) (freq : Word) (detune : BitVec 16) :
    2 * tuneReal p freq detune.toInt < (2 : ℝ) ^ 60 := by
  have hf : (freq.toNat : ℝ) < 2 ^ 32 := by exact_mod_cast freq.isLt
  have hr : (1 : ℝ) ≤ p.sampleRate := by exact_mod_cast p.rate_legal.1
  have hM : (p.turn : ℝ) ≤ 2 ^ 32 := by
    simp only [Params.turn]; push_cast; exact pow_le_pow_right₀ (by norm_num) p.phaseW_legal.2
  have ho : (2 : ℝ) ^ ((detune.toInt : ℝ) / 3072) ≤ 2 ^ (11 : ℝ) := by
    apply Real.rpow_le_rpow_of_exponent_le (by norm_num)
    have : detune.toInt < 2 ^ 15 := by have := @BitVec.toInt_lt 16 detune; simpa using this
    have : (detune.toInt : ℝ) < 2 ^ 15 := by exact_mod_cast this
    rw [div_le_iff₀ (by norm_num)]; linarith
  have ho' : (2 : ℝ) ^ (11 : ℝ) = 2 ^ 11 := by norm_num
  have h0 : (0:ℝ) < 2 ^ ((detune.toInt : ℝ) / 3072) := by positivity
  have h1 : tuneReal p freq detune.toInt < 2 ^ 59 := by
    simp only [tuneReal]
    rw [div_lt_iff₀ (by linarith)]
    calc freq.toNat / 2 ^ 16 * (2 : ℝ) ^ ((detune.toInt : ℝ) / 3072) * p.turn
        ≤ freq.toNat / 2 ^ 16 * 2 ^ 11 * 2 ^ 32 := by
          rw [ho'] at ho
          have : (0:ℝ) ≤ freq.toNat / 2 ^ 16 := by positivity
          gcongr
      _ < 2 ^ 59 := by linarith
      _ ≤ 2 ^ 59 * p.sampleRate := by nlinarith
  linarith

theorem twiceYFloor_spec (p : Params) (freq : Word) (detune : BitVec 16) :
    (twiceYFloor p freq detune.toInt : ℝ) ≤ 2 * tuneReal p freq detune.toInt ∧
      2 * tuneReal p freq detune.toInt < twiceYFloor p freq detune.toInt + 1 := by
  have := greatest_spec (fun c => decide (boundPower p detune.toInt c ≤ twiceYPower p freq detune.toInt)) 60 0
    (by have := tuneReal_nonneg p freq detune.toInt
        rw [decide_eq_true_iff, boundPower_le_iff]; push_cast; linarith)
    (by rw [decide_eq_false_iff_not, boundPower_le_iff, not_le]
        have := twice_tuneReal_lt p freq detune; push_cast; linarith)
  rw [decide_eq_true_iff, boundPower_le_iff, decide_eq_false_iff_not, boundPower_le_iff, not_le] at this
  rw [twiceYFloor]; exact_mod_cast this

/-- 2^(d/3072) is rational only for a whole number of octaves (R101). -/
theorem whole_octave_of_rational (d : Int) (x : ℚ) (hx : (2 : ℝ) ^ ((d : ℝ) / 3072) = x) :
    (3072 : Int) ∣ d := by
  have h : (x : ℝ) ^ 3072 = 2 ^ d := by
    rw [← hx, ← Real.rpow_natCast, ← Real.rpow_mul (by norm_num), ← Real.rpow_intCast]
    congr 1; push_cast; field_simp
  have h' : x ^ 3072 = (2 : ℚ) ^ d := by
    apply Rat.cast_injective (α := ℝ); push_cast; exact h
  have hv := congrArg (padicValRat 2) h'
  have h2 : padicValRat 2 (2 : ℚ) = 1 := padicValRat.self (p := 2) (by norm_num)
  rw [padicValRat.pow, padicValRat.zpow, h2, mul_one] at hv
  exact ⟨padicValRat 2 x, by exact_mod_cast hv.symm⟩

end Sys2Proof.Machine
end

