-- ==== Sys2Proof/Tests/Slice0.lean ====
section
/-! SUPPORT. The model's own tests: the well-formedness checks, words written out from 30_encoding.md,
one-step tests whose expected values come from 95_test_vectors.md, and, for each statement with hypotheses, a
concrete case that meets them. -/

namespace Sys2Proof.Tests

open Sys2Proof.Machine Sys2Proof.Claims

/-- The next state of an outcome. -/
def nextOf : Host.Outcome State Fault Refusal → Option State
  | .next t => some t
  | .fault _ => none
  | .refused _ => none

/-- The state after one step that takes the word w. -/
def send (w : CmdWord) (s : State) : Option State := nextOf (step (s.withFetchWord 64 w.toNat))

/-- The reset state with a tone of 11025 Hz, INC = M/4. -/
def quarterTone : State := { State.reset with freq := 0x2B110000 }

/-- The reset state with a noise tone and the given noise words. -/
def noiseTone (ws : List Word) : State := { quarterTone with wave := 4, nz := ws }

/-- The reset state of the smallest instance. -/
def smallest : State := State.resetOf ⟨2, 3, 1, 1, by decide, by decide, by decide, by decide⟩

/-! ### Well-formedness: each check refuses an ill-formed command -/

theorem test_wellFormed_accepts :
    (Instr.wrreg 0x0D 1).wellFormed = true ∧ (Instr.rdreg 0x0F).wellFormed = true ∧
      Instr.nop.wellFormed = true ∧ (Instr.gen 0).wellFormed = true ∧ Instr.rstph.wellFormed = true := by
  decide

theorem test_wellFormed_refuses_reserved_write : (Instr.wrreg 0x10 5).wellFormed = false := by decide

theorem test_wellFormed_refuses_reserved_read : (Instr.rdreg 0x10).wellFormed = false := by decide

theorem test_wellFormed_refuses_write_to_inc : (Instr.wrreg 0x04 5).wellFormed = false := by decide

theorem test_wellFormed_refuses_write_to_caps : (Instr.wrreg 0x0E 0).wellFormed = false := by decide

theorem test_wellFormed_refuses_write_to_srate : (Instr.wrreg 0x0F 0).wellFormed = false := by decide

/-! ### Decoding: one written-out word per constructor (30_encoding.md R75, 95_test_vectors.md P1) -/

theorem test_decode_nop : decode 0x0000000000000000 = .ok .nop := by decide

theorem test_decode_wrreg : decode 0x0101000001B80000 = .ok (.wrreg 0x01 0x01B80000) := by decide

theorem test_decode_rdreg : decode 0x020E000000000000 = .ok (.rdreg 0x0E) := by decide

theorem test_decode_gen : decode 0x03000000FFFFFFFE = .ok (.gen 0xFFFFFFFE) := by decide

theorem test_decode_rstph : decode 0x0400000000000000 = .ok .rstph := by decide

/-- V-ERR: an illegal OP beats every other check, and a reserved field beats a bad address. -/
theorem test_decode_errors :
    decode 0x0720000100000005 = .error .opcode ∧ decode 0xFF00000000000000 = .error .opcode ∧
      decode 0x0120000100000005 = .error .rsvd ∧ decode 0x0001000000000000 = .error .rsvd ∧
      decode 0x0201000000000001 = .error .rsvd ∧ decode 0x0301000000000004 = .error .rsvd ∧
      decode 0x0400000000000001 = .error .rsvd := by
  decide

/-- P1's `GEN 4` on a byte-wide transport (R57), one byte of the next command after it. -/
theorem test_decodeBytes :
    decodeBytes [4, 0, 0, 0, 0, 0, 0, 3, 0] = some (.ok (.gen 4), [0]) := by
  decide

/-! ### One step each -/

/-- R130's example. -/
theorem test_nop : send 0 State.reset = some (answered State.reset .always 0 0) := by decide

/-- V-WR: DETUNE clamps −256 semitones to −128. -/
theorem test_wrreg_detune :
    (send 0x01020000FFFF0000 State.reset).map (fun t => (t.detune, t.rsp)) = some (0x8000, [⟨0, 0⟩]) := by
  decide

/-- V-WR: bit 0 clears STATUS. -/
theorem test_wrreg_status :
    (send 0x010D000000000001 { State.reset with err := true, ecode := 1 }).map
      (fun t => (t.err, t.ecode)) = some (false, 0) := by
  decide

/-- V-RD: CAPS. -/
theorem test_rdreg_caps :
    (send 0x020E000000000000 State.reset).map State.rsp = some [⟨0, 0x01141820⟩] := by
  decide

/-- P1: INC for 440 Hz. -/
theorem test_rdreg_inc :
    (send 0x0204000000000000 { State.reset with freq := 0x01B80000 }).map State.rsp =
      some [⟨0, 0x028DDFB9⟩] := by
  decide +kernel

/-- V-WAVE and P2, the saw with its tie at M/2. -/
theorem test_gen_saw :
    (send 0x0300000000000004 { quarterTone with wave := 1 }).map (fun t => (t.smp, t.phase)) =
      some ([0x000000, 0x080000, 0x100000, 0xF80000], 0) := by
  decide +kernel

/-- P5: noise, clamped, with overtones. -/
theorem test_gen_noise :
    (send 0x0300000000000004
      { noiseTone [0x000000, 0x080000, 0x7FFFFF, 0xF80000] with harm := 0x8000 }).map State.smp =
      some [0x000000, 0x0394B9, 0x100000, 0xFC6B47] := by
  decide +kernel

/-- V-RSTPH. -/
theorem test_rstph :
    (send 0x0400000000000000
      { State.reset with phase := 0x0A377EE4, hph := { HarmonicPhases.zero with h8 := 0x51BBF720 } }).map
      (fun t => (t.phase, t.hph)) = some (0, HarmonicPhases.zero) := by
  decide

/-- V-ERR: WRREG to a read-only register. -/
theorem test_error :
    (send 0x0104000000000005 State.reset).map (fun t => (t.rsp, t.err, t.ecode)) =
      some ([⟨4, 0⟩], true, 4) := by
  decide

/-- V-SINF, a row that is not a quarter point. -/
theorem test_sinf : sinf Params.default 0x00100000 = 0x000648 := by decide +kernel

/-- V-TUNE, the largest operands. -/
theorem test_tune : tune Params.default 0xFFFFFFFF 0x7FFF = 0x12457542 := by decide +kernel

/-- R86's example, and R85's address form and comment. -/
theorem test_assemble :
    assembleLine "SETFREQ 440" = .command (.wrreg 0x01 0x01B80000) ∧
      assembleLine "RDREG @0x1F ; reserved" = .command (.rdreg 0x1F) ∧
      assembleLine "GEN -1" = .rejected := by
  decide +kernel

/-! ### The hypotheses of each statement can be met -/

theorem witness_DecodedWordIsTheCommandsWord : decode 0x0204000000000000 = .ok (.rdreg 0x04) := by decide

/-- Each row is spelled by a word, and a word spells none. -/
theorem witness_WordsDecodeByTheOpcodeTable :
    (∀ r ∈ opcodeTable, r.pattern &&& r.mask = r.pattern) ∧
      (∀ r ∈ opcodeTable, (0x0500000000000000 : CmdWord) &&& r.mask ≠ r.pattern) := by
  decide

/-- FirstFailingCheckDecidesTheError: the state, and words for its first clause, at both ends of the range. -/
theorem witness_illegal_op :
    State.reset.rst = false ∧ State.reset.busy = none ∧ 5 ≤ (opField 0x0500000000000000).toNat ∧
      5 ≤ (opField 0xFF00000000000000).toNat := by
  decide

/-- Its second clause: RSVD, ADDR and DATA, at the lowest and the highest bit of each. -/
theorem witness_reserved_field :
    [0x0000000100000000, 0x0400800000000000].all (fun w => decide ((opField w).toNat < 5 ∧ rsvdField w ≠ 0)) ∧
    [0x0001000000000000, 0x0380000000000000, 0x0401000000000000].all (fun w =>
      decide ((opField w = 0 ∨ opField w = 3 ∨ opField w = 4) ∧ addrField w ≠ 0)) ∧
    [0x0000000000000001, 0x0210000080000000, 0x0400000000000001].all (fun w =>
      decide ((opField w = 0 ∨ opField w = 2 ∨ opField w = 4) ∧ dataField w ≠ 0)) := by
  decide

/-- Its third clause: both ends of the reserved addresses, for either command. -/
theorem witness_reserved_address :
    [0x0110000000000000, 0x01FF0000FFFFFFFF].all (fun w =>
      decide (opField w = 1 ∧ rsvdField w = 0 ∧ 0x10 ≤ (addrField w).toNat)) ∧
    [0x0210000000000000, 0x02FF000000000000].all (fun w =>
      decide (opField w = 2 ∧ rsvdField w = 0 ∧ dataField w = 0 ∧ 0x10 ≤ (addrField w).toNat)) := by
  decide

/-- Its fourth clause: each read-only register. -/
theorem witness_read_only_address :
    [0x0104000000000005, 0x010E000000000000, 0x010F000000000000].all (fun w =>
      decide (opField w = 1 ∧ rsvdField w = 0 ∧
        (addrField w = 0x04 ∨ addrField w = 0x0E ∨ addrField w = 0x0F))) := by
  decide

/-- A host that takes the response, one that takes it as its last, and one that does not. This is what
TakingAnErrorRecordsAndResponds and each statement about NOP, WRREG, RDREG and RSTPH asks of the state. -/
theorem witness_response_readiness :
    State.reset.rspReady.take = some .always ∧
      ({ State.reset with rspReady := .credit 1 }).rspReady.take = some (.credit 0) ∧
      ({ State.reset with rspReady := .credit 0 }).rspReady.take = none := by
  decide

theorem witness_ReservedAddressesAreRejected :
    0x10 ≤ (0x10 : BitVec 8).toNat ∧ 0x10 ≤ (0xFF : BitVec 8).toNat := by
  decide

/-- The boundary operands of the clamps: both sides of each bound. -/
theorem witness_clamps :
    (legalWave 7 = 7 ∧ legalWave 8 = 7 ∧ legalWave 6 = 6) ∧
      (legalDetune 0x7FFF = 0x7FFF ∧ legalDetune 0x8000 = 0x7FFF ∧ legalDetune 0xFFFF8000 = 0x8000 ∧
        legalDetune 0xFFFF7FFF = 0x8000) ∧
      (legalHarm 0x8000 = 0x8000 ∧ legalHarm 0x8001 = 0x8000 ∧ legalHarm 0x7FFF = 0x7FFF) ∧
      (legalPhase smallest.params 4 = 0 ∧ legalPhase smallest.params 3 = 3 ∧
        legalPhase Params.default 0xFFFFFFFF = 0xFFFFFFFF) := by
  decide

/-- WritePhaseReducesModuloTheTurn: PHASE_W = 32, and half a turn. -/
theorem witness_WritePhaseReducesModuloTheTurn :
    State.reset.params.phaseW = 32 ∧ (0x80000000 : Word).toNat = 2 ^ State.reset.params.phaseW / 2 := by
  decide

/-- WriteStatusClearsOnBitZero: an operand with bit 0 set and one without. -/
theorem witness_WriteStatusClearsOnBitZero : (1 : Word).toNat % 2 = 1 ∧ (0xFFFFFFFE : Word).toNat % 2 = 0 := by
  decide

/-- Words with OP 0 and OP 4 that are not the command's. -/
theorem witness_NopOnlyResponds_RstphZeroesEveryPhase :
    opField 0x0001000000000000 = 0 ∧ (0x0001000000000000 : CmdWord) ≠ 0 ∧
      opField 0x0400000000000001 = 4 ∧ (0x0400000000000001 : CmdWord) ≠ 0x0400000000000000 ∧
      effectiveWave State.reset.wave = .sine ∧ effectiveWave 5 = .sine := by
  decide

/-- RSTPH, and a GEN that has come to its response. -/
theorem witness_UntakenResponseHoldsTheCommand :
    let s := { quarterTone with rspReady := .credit 0, wave := 3 }
    s.rst = false ∧ s.rspReady.take = none ∧ (Readiness.credit 1).take = some (.credit 0) ∧
      (∀ n, Instr.rstph ≠ .gen n) ∧ (∃ t, exec .rstph s = .next t ∧ t.busy = some (.respond ⟨0, 0⟩)) ∧
      ∃ t, exec (.gen 2) s = .next t ∧ t.busy = some (.respond ⟨0, 0⟩) :=
  ⟨rfl, rfl, rfl, by simp, ⟨_, rfl, rfl⟩, _, rfl, rfl⟩

/-- Phase words at both ends, one of them not a quarter point. -/
theorem witness_SinfIsTheCorrectlyRoundedSine :
    0 < 2 ^ Params.default.phaseW ∧ 2 ^ 32 - 1 < 2 ^ Params.default.phaseW ∧
      ¬2 ^ Params.default.phaseW ∣ 4 * (2 ^ 32 - 1) := by
  decide

theorem witness_TuneIsTheRoundedIncrement :
    ¬(3072 : Int) ∣ (0x0100 : BitVec 16).toInt ∧ (0x01B80000 : Word) ≠ 0 := by
  decide

/-- Both integers beside a tie. -/
theorem witness_RneRoundsHalfToEven :
    (1 : Int) ≠ rne (1 / 2) ∧ |(1 / 2 : Rat) - (1 : Int)| = |(1 / 2 : Rat) - rne (1 / 2)| := by
  have h : rne (1 / 2) = 0 := by decide +kernel
  rw [h]; norm_num

/-- θ at 0, at half a turn and just above it, and at the last phase word. -/
theorem witness_BaseValuesOfTheWaveforms :
    ∀ θ ∈ [0, 2 ^ 31, 2 ^ 31 + 1, 2 ^ 32 - 1], θ < 2 ^ Params.default.phaseW := by
  decide

/-- Enough noise words, a host with exactly enough credit, and one that is always ready. -/
theorem witness_GenEmitsItsSamplesAndAdvancesThePhases :
    let s := { noiseTone [1, 2] with smpReady := .credit 2 }
    (effectiveWave s.wave = .noise → (2 : Word).toNat ≤ s.nz.length) ∧
      s.smpReady = .credit (0 + (2 : Word).toNat) ∧ s.rspReady.take = some .always ∧
      (effectiveWave quarterTone.wave = .noise → (4 : Word).toNat ≤ quarterTone.nz.length) ∧
      quarterTone.smpReady = .always ∧ ({ s with rspReady := .credit 0 }).rspReady.take = none := by
  decide

/-- The reset state, of which GEN 0 and the bounds of samples are stated among others, is legal. -/
theorem witness_legal_state : State.reset.Legal where
  phase_fits := by decide
  hph_fits := fun k => by cases k <;> decide
  harm_range := by decide
  err_iff := by decide
  ecode_defined := by decide
  busy_legal := nofun
  smp_fit := nofun
  rsp_legal := nofun

theorem witness_GenWithoutNoiseIsHeld :
    let s := { noiseTone [7] with smpReady := .credit 1 }
    effectiveWave s.wave = .noise ∧ s.nz.length < (2 : Word).toNat ∧
      s.smpReady = .credit (0 + s.nz.length) ∧ s.rst = false ∧ (noiseTone []).smpReady = .always ∧
      (noiseTone []).nz.length < (1 : Word).toNat := by
  decide

theorem witness_GenWithoutTheHostIsHeld :
    let s := { noiseTone [7, 8] with smpReady := .credit 1 }
    s.smpReady = .credit 1 ∧ 1 < (2 : Word).toNat ∧ (effectiveWave s.wave = .noise → 1 < s.nz.length) ∧
      s.rst = false ∧ ({ quarterTone with smpReady := .credit 0 }).smpReady = .credit 0 ∧
      0 < (1 : Word).toNat := by
  decide

/-- A host that is always ready, and one that takes exactly the samples whose noise words are there. -/
theorem witness_LateNoiseDelaysButDoesNotChange :
    let s := { noiseTone [] with smpReady := .credit 1 }
    effectiveWave s.wave = .noise ∧ ([7] : List Word).length < (2 : Word).toNat ∧
      TakesAtLeast ([7] : List Word).length s.smpReady ∧ TakesAtLeast ([7] : List Word).length .always ∧
      s.rst = false ∧ ∃ t, exec (.gen 2) { s with nz := [7] } = .next t :=
  ⟨rfl, by decide, .inr ⟨0, rfl⟩, .inl rfl, rfl, _, rfl⟩

/-- With these, the host's readiness afterwards is any. -/
theorem witness_LateHostDelaysButDoesNotChange :
    1 < (2 : Word).toNat ∧ quarterTone.rst = false ∧
      (effectiveWave quarterTone.wave = .noise → 1 < quarterTone.nz.length) ∧
      ∃ t, exec (.gen 2) { quarterTone with smpReady := .credit 1 } = .next t :=
  ⟨by decide, rfl, by decide, _, rfl⟩

/-- Exactly enough credit and, for the noise waveform, exactly enough noise words; the state between the two
commands may be the first one's own next state. -/
theorem witness_ConsecutiveBuffersJoinBitForBit :
    let s := { noiseTone [1, 2, 3] with smpReady := .credit 3, rspReady := .credit 0 }
    (1 : Word).toNat + (2 : Word).toNat < 2 ^ 32 ∧
      (effectiveWave s.wave = .noise → (1 : Word).toNat + (2 : Word).toNat ≤ s.nz.length) ∧
      TakesAtLeast ((1 : Word).toNat + (2 : Word).toNat) s.smpReady ∧
      ∃ t u v, exec (.gen 1) s = .next t ∧ SameTone t t ∧ TakesAtLeast (2 : Word).toNat t.smpReady ∧
        exec (.gen 2) t = .next u ∧ exec (.gen (1 + 2)) s = .next v :=
  ⟨by decide, by decide, .inr ⟨0, rfl⟩, _, _, _, rfl, ⟨rfl, rfl, rfl, rfl, rfl, rfl, rfl⟩, .inr ⟨0, rfl⟩,
    rfl, rfl⟩

/-- A coherent state and a step of it that is no phase write. -/
theorem witness_HarmonicCoherenceIsKept :
    State.reset.Coherent ∧ step { State.reset with cmd := [0x0100000000000001] } =
      .next (answered { State.reset with wave := 1 } .always 0 0) ∧
      decode 0x0100000000000001 = .ok (.wrreg 0x00 1) ∧
      ¬(0x05 ≤ (0x00 : BitVec 8).toNat ∧ (0x00 : BitVec 8).toNat ≤ 0x0C) :=
  ⟨fun k => by cases k <;> rfl, rfl, by decide, by decide⟩

/-- OUT_W with room for the sum, the least there is, with the legal reset state of that instance. -/
theorem witness_SamplesStayWithinTheOutputBound_SamplesStayCloseToTheRealLaws :
    let p : Params := ⟨2, 4, 1, 1, by decide, by decide, by decide, by decide⟩
    (State.resetOf p).params.frac + 3 ≤ (State.resetOf p).params.outW ∧
      State.reset.params.frac + 3 ≤ State.reset.params.outW ∧ (State.resetOf p).harm.toNat ≤ 0x8000 := by
  decide

theorem witness_UnknownWaveformActsAsSine :
    ∀ c ∈ [(5 : BitVec 3), 6, 7], ∃ t, exec (.gen 4) { quarterTone with wave := c } = .next t :=
  fun _ _ => ⟨_, rfl⟩

/-- The frames and whole-machine rules ask only for a next state. -/
theorem witness_frames :
    (∃ t, exec .nop State.reset = .next t) ∧ (∃ t, exec .rstph State.reset = .next t) ∧
      (∃ t, exec (.rdreg 0x0D) State.reset = .next t) ∧ (∃ t, exec (.rdreg 0x10) State.reset = .next t) ∧
      (∃ t, exec (.wrreg 0x0C 1) State.reset = .next t) ∧ (∃ t, exec (.wrreg 0x0D 1) State.reset = .next t) ∧
      (∃ t, exec (.wrreg 0x0F 1) State.reset = .next t) ∧
      (∃ t, exec (.gen 2) (noiseTone [7]) = .next t ∧ ∃ i x, t.busy = some (.gen 2 i x)) ∧
      (Instr.wrreg 0x0C 1).wellFormed = true ∧ (Instr.wrreg 0x0F 1).wellFormed = false ∧
      (∀ n, Instr.nop ≠ .gen n) ∧ ∃ t, step State.reset = .next t :=
  ⟨⟨_, rfl⟩, ⟨_, rfl⟩, ⟨_, rfl⟩, ⟨_, rfl⟩, ⟨_, rfl⟩, ⟨_, rfl⟩, ⟨_, rfl⟩, ⟨_, rfl, _, _, rfl⟩, by decide,
    by decide, by simp, _, rfl⟩

/-- A step that takes a word, one that goes on with a held command, and an idle one. -/
theorem witness_StepRunsTheDecodedCommand_StepTakesNoWordWhileBusy :
    ({ State.reset with cmd := [0] }).rst = false ∧ ({ State.reset with cmd := [0] }).busy = none ∧
      decode 0 = .ok .nop ∧
      (∃ t, step { State.reset with busy := some (.respond ⟨0, 0⟩), cmd := [0] } = .next t ∧ t.cmd = [0]) ∧
      step State.reset = .next State.reset :=
  ⟨rfl, rfl, by decide, ⟨_, rfl, rfl⟩, rfl⟩

/-- A reset, a step of a held command, a rejected word and a word that is a command. -/
theorem witness_StatusChangesOnlyByErrorOrClear :
    (requestReset State.reset).rst = true ∧
      ({ State.reset with busy := some (.respond ⟨0, 0⟩) }).busy ≠ none ∧ State.reset.cmd = [] ∧
      State.reset.busy = none ∧ State.reset.rst = false ∧ decode 0x0500000000000000 = .error .opcode ∧
      decode 0x010D000000000001 = .ok (.wrreg 0x0D 1) ∧ ∃ t, step State.reset = .next t :=
  ⟨rfl, by simp, rfl, rfl, rfl, by decide, by decide, _, rfl⟩

theorem witness_ResetEntersTheResetState_ResetAbandonsTheCommand :
    (requestReset { noiseTone [7] with busy := some (.gen 2 1 none), cmd := [0] }).rst = true := by
  decide

/-- The ends of each pseudo-command's range, and a tie that rounds to even (R86). -/
theorem witness_PseudoCommandsExpand :
    ((0 : Rat) ≤ 65536 - 1 / 2 ^ 16 ∧ assemble (.setFreq (65536 - 1 / 2 ^ 16)) = some (.wrreg 0x01 0xFFFFFFFF)) ∧
      assemble (.setDetune (-12)) = some (.wrreg 0x02 0xFFFFF400) ∧
      ((0 : Rat) ≤ 1 ∧ assemble (.setHarm 1) = some (.wrreg 0x03 0x8000)) ∧
      assemble (.setHarm (1 / 2 ^ 16)) = some (.wrreg 0x03 0) := by
  refine ⟨⟨by norm_num, by decide +kernel⟩, by decide +kernel, ⟨by norm_num, by decide +kernel⟩,
    by decide +kernel⟩

/-- The least and the greatest word of the smallest and of the default OUT_W, and a list that is one byte
short. -/
theorem witness_OtherWordsBytesAreLittleEndian :
    SampleFits smallest.params 7 ∧ SampleFits Params.default 0 ∧ SampleFits Params.default 0xFFFFFF ∧
      ([1, 2] : List Byte).length < (Params.default.outW + 7) / 8 :=
  ⟨by unfold SampleFits; decide, by unfold SampleFits; decide, by unfold SampleFits; decide, by decide⟩

end Sys2Proof.Tests
end

section
/-! The reserved addresses of R29: both register commands take E_ADDR there. -/

namespace Sys2Proof.Machine
open Sys2Proof.Claims

/-- The reserved addresses hold no register (R29). -/
theorem regAt_eq_none_of_reserved {a : BitVec 8} (ha : 0x10 ≤ a.toNat) : regAt a = none :=
  (regAt_eq_none_iff a).2 (decide_eq_false (Nat.not_lt.2 ha))

theorem exec_wrreg (a : BitVec 8) (v : Word) (s : State) : exec (.wrreg a v) s = execWrreg a v s := rfl

theorem exec_rdreg (a : BitVec 8) (s : State) : exec (.rdreg a) s = execRdreg a s := rfl

theorem exec_wrreg_of_regAt_none {a : BitVec 8} (ha : regAt a = none) (v : Word) (s : State) :
    exec (.wrreg a v) s = .next (raise .addr s) := by
  rw [exec_wrreg]
  obtain ⟨-, h⟩ | ⟨r, hr, -⟩ | ⟨r, hr, -⟩ := execWrreg_cases a v s
  · exact h
  · simp [ha] at hr
  · simp [ha] at hr

theorem exec_rdreg_of_regAt_none {a : BitVec 8} (ha : regAt a = none) (s : State) :
    exec (.rdreg a) s = .next (raise .addr s) := by
  rw [exec_rdreg]
  obtain ⟨-, h⟩ | ⟨r, hr, -⟩ := execRdreg_cases a s
  · exact h
  · simp [ha] at hr

/-- A host that takes the error's response ends the command, with only STATUS changed (R154). -/
theorem raise_eq_answered {s : State} {q : Readiness} (hq : s.rspReady.take = some q) (e : ErrorCode) :
    raise e s = answered { s with err := true, ecode := e.code } q e.code 0 :=
  raise_ready hq e

/-- Settles O10: no register is at a reserved address, so both commands raise E_ADDR, whose code is 3. -/
theorem reservedAddressesAreRejected : Obligations.ReservedAddressesAreRejected := by
  unfold Obligations.ReservedAddressesAreRejected
  intro s a v q hq ha
  have hreg : regAt a = none := regAt_eq_none_of_reserved ha
  have herr : raise .addr s = answered { s with err := true, ecode := 3 } q 3 0 := raise_eq_answered hq .addr
  exact ⟨by rw [exec_wrreg_of_regAt_none hreg, herr], by rw [exec_rdreg_of_regAt_none hreg, herr]⟩

end Sys2Proof.Machine
end

section
/-! The word a step takes: its decoding decides whether a command runs or an error is taken (R77 to R79). -/

namespace Sys2Proof.Machine
open Sys2Proof.Claims

/-- The first field check of R79: OP names no command. -/
theorem decode_of_illegal_op {w : CmdWord} (hop : 5 ≤ (opField w).toNat) : decode w = .error .opcode := by
  have hne : ∀ c : BitVec 8, c.toNat < 5 → opField w ≠ c := by
    rintro c hc rfl
    exact absurd hc (Nat.not_lt.2 hop)
  rw [decode, if_neg (hne _ (by decide)), if_neg (hne _ (by decide)), if_neg (hne _ (by decide)),
    if_neg (hne _ (by decide)), if_neg (hne _ (by decide))]

/-- The commands' OP values are those below 5 (R75). -/
theorem opField_cases {w : CmdWord} (hop : (opField w).toNat < 5) :
    opField w = 0 ∨ opField w = 1 ∨ opField w = 2 ∨ opField w = 3 ∨ opField w = 4 := by
  bv_omega

theorem decode_of_op_nop {w : CmdWord} (hop : opField w = 0) :
    decode w = if addrField w = 0 ∧ rsvdField w = 0 ∧ dataField w = 0 then .ok .nop else .error .rsvd := by
  simp [decode, hop]

theorem decode_of_op_wrreg {w : CmdWord} (hop : opField w = 1) :
    decode w = if rsvdField w = 0 then .ok (.wrreg (addrField w) (dataField w)) else .error .rsvd := by
  simp [decode, hop]

theorem decode_of_op_rdreg {w : CmdWord} (hop : opField w = 2) :
    decode w = if rsvdField w = 0 ∧ dataField w = 0 then .ok (.rdreg (addrField w)) else .error .rsvd := by
  simp [decode, hop]

theorem decode_of_op_gen {w : CmdWord} (hop : opField w = 3) :
    decode w = if addrField w = 0 ∧ rsvdField w = 0 then .ok (.gen (dataField w)) else .error .rsvd := by
  simp [decode, hop]

theorem decode_of_op_rstph {w : CmdWord} (hop : opField w = 4) :
    decode w = if addrField w = 0 ∧ rsvdField w = 0 ∧ dataField w = 0 then .ok .rstph else .error .rsvd := by
  simp [decode, hop]

/-- The second field check of R79: a field that the command of OP does not use is not 0 (R78). -/
theorem decode_of_reserved_field {w : CmdWord} (hop : (opField w).toNat < 5)
    (hfield : rsvdField w ≠ 0 ∨
      ((opField w = 0 ∨ opField w = 3 ∨ opField w = 4) ∧ addrField w ≠ 0) ∨
      ((opField w = 0 ∨ opField w = 2 ∨ opField w = 4) ∧ dataField w ≠ 0)) :
    decode w = .error .rsvd := by
  obtain h | h | h | h | h := opField_cases hop
  · rw [decode_of_op_nop h, if_neg]
    rintro ⟨ha, hr, hd⟩
    simp [ha, hr, hd] at hfield
  · rw [decode_of_op_wrreg h, if_neg]
    intro hr
    simp [h, hr] at hfield
  · rw [decode_of_op_rdreg h, if_neg]
    rintro ⟨hr, hd⟩
    simp [h, hr, hd] at hfield
  · rw [decode_of_op_gen h, if_neg]
    rintro ⟨ha, hr⟩
    simp [h, ha, hr] at hfield
  · rw [decode_of_op_rstph h, if_neg]
    rintro ⟨ha, hr, hd⟩
    simp [ha, hr, hd] at hfield

theorem decode_of_wrreg_fields {w : CmdWord} (hop : opField w = 1) (hrsvd : rsvdField w = 0) :
    decode w = .ok (.wrreg (addrField w) (dataField w)) := by
  rw [decode_of_op_wrreg hop, if_pos hrsvd]

theorem decode_of_rdreg_fields {w : CmdWord} (hop : opField w = 2) (hrsvd : rsvdField w = 0)
    (hdata : dataField w = 0) : decode w = .ok (.rdreg (addrField w)) := by
  rw [decode_of_op_rdreg hop, if_pos ⟨hrsvd, hdata⟩]

section TakenWord

variable {s : State} {w : CmdWord} {rest : List CmdWord}
  (hrst : s.rst = false) (hbusy : s.busy = none) (hcmd : s.cmd = w :: rest)
include hrst hbusy hcmd

theorem step_of_decode_error {e : ErrorCode} (hdec : decode w = .error e) :
    step s = .next (raise e { s with cmd := rest }) := by
  simp [step, hrst, hbusy, hcmd, hdec, takeCmd]

theorem step_of_decode_ok {i : Instr} (hdec : decode w = .ok i) :
    step s = exec i { s with cmd := rest } := by
  simp [step, hrst, hbusy, hcmd, hdec, takeCmd]

end TakenWord

/-- INC, CAPS and SRATE are registers, and read-only (R139). -/
theorem regAt_readOnly_of_addr {a : BitVec 8} (ha : a = 0x04 ∨ a = 0x0E ∨ a = 0x0F) :
    ∃ r, regAt a = some r ∧ r.readOnly = true := by
  obtain rfl | rfl | rfl := ha
  · exact ⟨.inc, rfl, rfl⟩
  · exact ⟨.caps, rfl, rfl⟩
  · exact ⟨.srate, rfl, rfl⟩

theorem exec_wrreg_of_readOnly {a : BitVec 8} {r : Reg} (hreg : regAt a = some r) (hro : r.readOnly = true)
    (v : Word) (s : State) : exec (.wrreg a v) s = .next (raise .ro s) := by
  rw [exec_wrreg]
  obtain ⟨hnone, -⟩ | ⟨-, -, -, h⟩ | ⟨r', hr', hrw, -⟩ := execWrreg_cases a v s
  · simp [hreg] at hnone
  · exact h
  · obtain rfl : r = r' := by simpa [hreg] using hr'
    simp [hro] at hrw

/-- Settles O7: OP and the reserved fields are the decoder's checks, in R79's order; a word that passes both
is a register command, whose own checks are of its address. -/
theorem firstFailingCheckDecidesTheError : Obligations.FirstFailingCheckDecidesTheError := by
  unfold Obligations.FirstFailingCheckDecidesTheError
  intro s w rest hrst hbusy hcmd
  refine ⟨fun hop => ?illegalOp, fun hop hfield => ?reservedField, fun hfields haddr => ?reservedAddress,
    fun hop hrsvd haddr => ?readOnly⟩
  case illegalOp => exact step_of_decode_error hrst hbusy hcmd (decode_of_illegal_op hop)
  case reservedField => exact step_of_decode_error hrst hbusy hcmd (decode_of_reserved_field hop hfield)
  case reservedAddress =>
    have hreg : regAt (addrField w) = none := regAt_eq_none_of_reserved haddr
    obtain ⟨hop, hrsvd⟩ | ⟨hop, hrsvd, hdata⟩ := hfields
    · rw [step_of_decode_ok hrst hbusy hcmd (decode_of_wrreg_fields hop hrsvd), exec_wrreg_of_regAt_none hreg]
    · rw [step_of_decode_ok hrst hbusy hcmd (decode_of_rdreg_fields hop hrsvd hdata),
        exec_rdreg_of_regAt_none hreg]
  case readOnly =>
    obtain ⟨r, hreg, hro⟩ := regAt_readOnly_of_addr haddr
    rw [step_of_decode_ok hrst hbusy hcmd (decode_of_wrreg_fields hop hrsvd), exec_wrreg_of_readOnly hreg hro]

end Sys2Proof.Machine
end

section
/-! The operands of the pseudo-commands, rounded to the words of their registers (R86). -/

namespace Sys2Proof.Machine
open Sys2Proof.Claims

/-- Rounding passes no integer from below. -/
theorem le_rne_of_le {n : Int} {x : Rat} (h : (n : Rat) ≤ x) : n ≤ rne x := by
  have hnear := (abs_le.1 (rne_spec x).1).2
  have hlt : (n : Rat) < rne x + 1 := by linarith
  exact Int.lt_add_one_iff.1 (by exact_mod_cast hlt)

/-- Rounding passes no integer from above. -/
theorem rne_le_of_le {n : Int} {x : Rat} (h : x ≤ (n : Rat)) : rne x ≤ n := by
  have hnear := (abs_le.1 (rne_spec x).1).1
  have hlt : (rne x : Rat) < n + 1 := by linarith
  exact Int.lt_add_one_iff.1 (by exact_mod_cast hlt)

theorem toNat_ofInt_word (v : Int) : ((BitVec.ofInt 32 v).toNat : Int) = v % 2 ^ 32 := by
  rw [BitVec.toNat_ofInt, Int.toNat_of_nonneg (Int.emod_nonneg _ (by decide))]
  rfl

/-- A value that is a 32-bit number is written as it stands (R85). -/
theorem asmWrite_of_fits {addr : Nat} {v : Int} (haddr : addr < 256) (hlo : 0 ≤ v) (hhi : v < 2 ^ 32) :
    ∃ w : Word, (w.toNat : Int) = v ∧ asmWrite addr v = some (.wrreg (BitVec.ofNat 8 addr) w) := by
  refine ⟨BitVec.ofInt 32 v, ?_, if_pos ⟨haddr, by omega, hhi⟩⟩
  rw [toNat_ofInt_word, Int.emod_eq_of_lt hlo hhi]

/-- A scaled operand between 0 and the greatest word is written as its rounding. -/
theorem asmWrite_rne {addr : Nat} {x : Rat} (haddr : addr < 256) (hlo : 0 ≤ x) (hhi : x ≤ 2 ^ 32 - 1) :
    ∃ w : Word, (w.toNat : Int) = rne x ∧ asmWrite addr (rne x) = some (.wrreg (BitVec.ofNat 8 addr) w) := by
  have hle : rne x ≤ 2 ^ 32 - 1 := rne_le_of_le (by exact_mod_cast hhi)
  exact asmWrite_of_fits haddr (le_rne_of_le (by exact_mod_cast hlo)) (by omega)

theorem assemble_setFreq {hz : Rat} (hlo : 0 ≤ hz) (hhi : hz ≤ 65536 - 1 / 2 ^ 16) :
    ∃ v : Word, (v.toNat : Int) = rne (hz * 2 ^ 16) ∧ assemble (.setFreq hz) = some (.wrreg 0x01 v) := by
  rw [assemble, if_pos ⟨hlo, hhi⟩]
  exact asmWrite_rne (by decide) (by linarith) (by linarith)

theorem assemble_setDetune (st : Rat) :
    ∃ v : Word, (v.toNat : Int) = rne (st * 256) % 2 ^ 32 ∧
      assemble (.setDetune st) = some (.wrreg 0x02 v) :=
  ⟨_, toNat_ofInt_word _, rfl⟩

theorem assemble_setHarm {a : Rat} (hlo : 0 ≤ a) (hhi : a ≤ 1) :
    ∃ v : Word, (v.toNat : Int) = rne (a * 2 ^ 15) ∧ assemble (.setHarm a) = some (.wrreg 0x03 v) := by
  rw [assemble, if_pos ⟨hlo, hhi⟩]
  exact asmWrite_rne (by decide) (by linarith) (by linarith)

/-- Settles O52: the rounded operands fit their words, and the lines without a numeric range are closed
evaluations of the assembler. -/
theorem pseudoCommandsExpand : Obligations.PseudoCommandsExpand := by
  unfold Obligations.PseudoCommandsExpand
  refine ⟨fun hz => assemble_setFreq, assemble_setDetune, fun a => assemble_setHarm, ?_⟩
  decide +kernel

end Sys2Proof.Machine
end

section
/-! Harmonic coherence (40_generate.md R117): which steps can break it, and the overtones of a coherent
state. -/

namespace Sys2Proof.Machine
open Sys2Proof.Claims

/-- Coherence is a property of the phases alone. -/
theorem State.coherent_congr {s t : State} (hparams : t.params = s.params) (hphase : t.phase = s.phase)
    (hhph : t.hph = s.hph) : t.Coherent ↔ s.Coherent := by
  simp only [State.Coherent, hparams, hphase, hhph]

theorem State.coherent_of_zero {s : State} (hphase : s.phase = 0) (hhph : s.hph = HarmonicPhases.zero) :
    s.Coherent := by
  intro k
  rw [hphase, hhph, HarmonicPhases.get_zero]
  rfl

@[simp] theorem coherent_respond (c : BitVec 4) (d : Word) (s : State) :
    (respond c d s).Coherent ↔ s.Coherent :=
  State.coherent_congr (by simp) (by simp) (by simp)

@[simp] theorem coherent_raise (e : ErrorCode) (s : State) : (raise e s).Coherent ↔ s.Coherent :=
  State.coherent_congr (by simp) (by simp) (by simp)

@[simp] theorem coherent_takeCmd (rest : List CmdWord) (s : State) :
    (takeCmd rest s).Coherent ↔ s.Coherent :=
  State.coherent_congr rfl rfl rfl

@[simp] theorem coherent_afterSamples (s : State) (i m : Nat) (r : Readiness) :
    (afterSamples s i m r).Coherent ↔ s.Coherent :=
  State.coherent_congr rfl rfl rfl

theorem emit_coherent {s t : State} (hs : s.Coherent) {w : Word} (h : emit w s = some t) : t.Coherent := by
  obtain ⟨r, -, rfl⟩ := emit_eq_some h
  exact hs

theorem applyReset_coherent (s : State) : (applyReset s).Coherent := State.coherent_of_zero rfl rfl

theorem resetPhases_coherent (s : State) : (resetPhases s).Coherent := State.coherent_of_zero rfl rfl

/-- Each overtone advances k times as fast as the fundamental, so the two keep their ratio. -/
theorem State.Coherent.harmonicAt_modEq {s : State} (hs : s.Coherent) (k : Overtone) (i : Nat) :
    s.harmonicAt k i ≡ k.num * s.phaseAt i [MOD s.params.turn] :=
  calc s.harmonicAt k i
      ≡ (s.hph.get k).toNat + i * k.num * s.inc [MOD s.params.turn] := Nat.mod_modEq _ _
    _ ≡ k.num * s.phase.toNat + i * k.num * s.inc [MOD s.params.turn] := (hs k).add_right _
    _ = k.num * (s.phase.toNat + i * s.inc) := by ring
    _ ≡ k.num * s.phaseAt i [MOD s.params.turn] := (Nat.mod_modEq _ _).symm.mul_left _

theorem advancePhases_coherent {s : State} (hs : s.Coherent) (n : Nat) : (advancePhases n s).Coherent := by
  intro k
  rw [advancePhases_phase, advancePhases_hph, HarmonicPhases.get_ofFn, toNat_ofNat_harmonicAt,
    toNat_ofNat_phaseAt]
  exact hs.harmonicAt_modEq k n

/-- A run of samples leaves the phases alone until its end, where all advance together (R114). -/
theorem genFrom_coherent {s : State} (hs : s.Coherent) {n : Word} {k : Nat} (hk : k ≤ n.toNat) :
    (genFrom n k s).Coherent := by
  obtain ⟨m, r, -, -, -, ⟨-, h⟩ | ⟨-, -, -, h⟩ | ⟨-, -, -, h⟩⟩ := genFrom_cases n k s hk
  · rw [h, coherent_respond]
    exact advancePhases_coherent ((coherent_afterSamples ..).2 hs) _
  · rw [h]
    exact (State.coherent_congr rfl rfl rfl).2 hs
  · rw [h]
    exact (State.coherent_congr rfl rfl rfl).2 hs

theorem resume_coherent {s : State} (hs : s.Coherent) (b : Busy) : (resume b s).Coherent := by
  cases b with
  | respond r => exact (coherent_respond ..).2 hs
  | gen n i pending =>
    cases pending with
    | none => exact genFrom_coherent hs (Nat.sub_le _ _)
    | some w =>
      unfold resume
      dsimp only
      split
      · exact hs
      next s₁ hemit =>
        exact genFrom_coherent (emit_coherent hs hemit) (Nat.sub_le _ _)

/-- The addresses 0x05 to 0x0C are those of the phase registers; a write elsewhere leaves the phases. -/
theorem writeReg_phases {a : BitVec 8} {r : Reg} (hreg : regAt a = some r)
    (ha : ¬(0x05 ≤ a.toNat ∧ a.toNat ≤ 0x0C)) (v : Word) (s : State) :
    (writeReg r v s).phase = s.phase ∧ (writeReg r v s).hph = s.hph := by
  obtain rfl : r.addr = a := addr_of_regAt hreg
  cases r with
  | phase => exact absurd (by decide) ha
  | hph k => exact absurd (by cases k <;> decide) ha
  | status => simp only [writeReg, clearStatus]; split <;> exact ⟨rfl, rfl⟩
  | _ => exact ⟨rfl, rfl⟩

theorem execWrreg_coherent {s t : State} (hs : s.Coherent) {a : BitVec 8} {v : Word}
    (ha : ¬(0x05 ≤ a.toNat ∧ a.toNat ≤ 0x0C)) (h : execWrreg a v s = .next t) : t.Coherent := by
  obtain ⟨-, hx⟩ | ⟨r, -, -, hx⟩ | ⟨r, hreg, -, hx⟩ := execWrreg_cases a v s <;> rw [hx] at h <;> cases h
  · exact (coherent_raise ..).2 hs
  · exact (coherent_raise ..).2 hs
  · obtain ⟨hphase, hhph⟩ := writeReg_phases hreg ha v s
    exact (coherent_respond ..).2 ((State.coherent_congr (by simp) hphase hhph).2 hs)

theorem execRdreg_coherent {s t : State} (hs : s.Coherent) {a : BitVec 8}
    (h : execRdreg a s = .next t) : t.Coherent := by
  obtain ⟨-, hx⟩ | ⟨r, -, hx⟩ := execRdreg_cases a s <;> rw [hx] at h <;> cases h
  · exact (coherent_raise ..).2 hs
  · exact (coherent_respond ..).2 hs

theorem exec_rstph_coherent {s t : State} (h : exec .rstph s = .next t) : t.Coherent := by
  cases h
  exact (coherent_respond ..).2 (resetPhases_coherent s)

/-- No command but a write of a phase register breaks coherence. -/
theorem exec_coherent {s t : State} (hs : s.Coherent) {i : Instr}
    (hi : ∀ a v, i = .wrreg a v → ¬(0x05 ≤ a.toNat ∧ a.toNat ≤ 0x0C)) (h : exec i s = .next t) :
    t.Coherent := by
  cases i with
  | nop => cases h; exact (coherent_respond ..).2 hs
  | wrreg a v => exact execWrreg_coherent hs (hi a v rfl) h
  | rdreg a => exact execRdreg_coherent hs h
  | gen n => cases h; exact genFrom_coherent hs le_rfl
  | rstph => exact exec_rstph_coherent h

/-- No step but one that takes a write of a phase register breaks coherence. -/
theorem step_coherent {s t : State} (hs : s.Coherent) (h : step s = .next t)
    (hw : ∀ w rest a v, s.rst = false → s.busy = none → s.cmd = w :: rest →
      decode w = .ok (.wrreg a v) → ¬(0x05 ≤ a.toNat ∧ a.toNat ≤ 0x0C)) : t.Coherent := by
  obtain ⟨-, hx⟩ | ⟨-, b, -, hx⟩ | ⟨-, -, -, hx⟩ | ⟨-, -, w, rest, e, -, -, hx⟩ |
    ⟨hrst, hbusy, w, rest, i, hcmd, hdec, hx⟩ := step_cases s <;> rw [hx] at h
  · cases h; exact applyReset_coherent s
  · cases h; exact resume_coherent hs b
  · cases h; exact hs
  · cases h; exact (coherent_raise ..).2 ((coherent_takeCmd ..).2 hs)
  · refine exec_coherent ((coherent_takeCmd rest s).2 hs) ?_ h
    rintro a v rfl
    exact hw w rest a v hrst hbusy hcmd hdec

/-- Settles O32: reset and RSTPH zero all phases, GEN advances HPH[k] k times as far as PHASE, and no other
step but a write of a phase register touches them. -/
theorem harmonicCoherenceIsKept : Obligations.HarmonicCoherenceIsKept := by
  unfold Obligations.HarmonicCoherenceIsKept
  exact ⟨fun _ => State.coherent_of_zero rfl rfl, fun _ _ => exec_rstph_coherent,
    fun _ _ hs h hw => step_coherent hs h hw, fun _ hs => hs.harmonicAt_modEq⟩

end Sys2Proof.Machine
end

section
/-! SINF is the sine rounded to nearest (40_generate.md R102), from the floor that `sinFloor_spec` gives in the
first quarter turn. -/

namespace Sys2Proof.Machine
open Sys2Proof.Claims

/-- 2^FRAC · sin(2π θ / M), the real number that SINF rounds (R102). -/
noncomputable def scaledSine (p : Params) (θ : Nat) : ℝ := p.unit * Real.sin (2 * Real.pi * θ / p.turn)

theorem cast_quarterTurn_ne_zero (p : Params) : (p.quarterTurn : ℝ) ≠ 0 := by
  exact_mod_cast (Nat.two_pow_pos _).ne'

theorem cast_turn_eq (p : Params) : (p.turn : ℝ) = 4 * p.quarterTurn := by
  exact_mod_cast turn_eq_four_quarters p

theorem one_le_unit (p : Params) : (1 : ℝ) ≤ p.unit := by
  exact_mod_cast Nat.one_le_two_pow (n := p.frac)

/-! ### The symmetries of the sine at phase words -/

theorem scaledSine_zero (p : Params) : scaledSine p 0 = 0 := by simp [scaledSine]

theorem scaledSine_quarter (p : Params) : scaledSine p p.quarterTurn = p.unit := by
  have hq := cast_quarterTurn_ne_zero p
  have hangle : 2 * Real.pi * p.quarterTurn / p.turn = Real.pi / 2 := by
    rw [cast_turn_eq]; field_simp; ring
  rw [scaledSine, hangle, Real.sin_pi_div_two, mul_one]

theorem scaledSine_half_sub (p : Params) {θ : Nat} (h : θ ≤ 2 * p.quarterTurn) :
    scaledSine p (2 * p.quarterTurn - θ) = scaledSine p θ := by
  have hq := cast_quarterTurn_ne_zero p
  have hangle : 2 * Real.pi * ((2 * p.quarterTurn - θ : Nat) : ℝ) / p.turn =
      Real.pi - 2 * Real.pi * θ / p.turn := by
    rw [cast_turn_eq]; push_cast [h]; field_simp; ring
  rw [scaledSine, hangle, Real.sin_pi_sub, scaledSine]

theorem scaledSine_sub_half (p : Params) {θ : Nat} (h : 2 * p.quarterTurn ≤ θ) :
    scaledSine p (θ - 2 * p.quarterTurn) = -scaledSine p θ := by
  have hq := cast_quarterTurn_ne_zero p
  have hangle : 2 * Real.pi * ((θ - 2 * p.quarterTurn : Nat) : ℝ) / p.turn =
      2 * Real.pi * θ / p.turn - Real.pi := by
    rw [cast_turn_eq]; push_cast [h]; field_simp; ring
  rw [scaledSine, hangle, Real.sin_sub_pi, scaledSine, mul_neg]

theorem scaledSine_turn_sub (p : Params) {θ : Nat} (h : θ ≤ 4 * p.quarterTurn) :
    scaledSine p (4 * p.quarterTurn - θ) = -scaledSine p θ := by
  have hq := cast_quarterTurn_ne_zero p
  have hangle : 2 * Real.pi * ((4 * p.quarterTurn - θ : Nat) : ℝ) / p.turn =
      2 * Real.pi - 2 * Real.pi * θ / p.turn := by
    rw [cast_turn_eq]; push_cast [h]; field_simp
  rw [scaledSine, hangle, Real.sin_two_pi_sub, scaledSine, mul_neg]

theorem scaledSine_le_unit (p : Params) (θ : Nat) : |scaledSine p θ| ≤ p.unit := by
  rw [scaledSine, abs_mul, Nat.abs_cast]
  exact mul_le_of_le_one_right (Nat.cast_nonneg _) (Real.abs_sin_le_one _)

/-! ### The first quarter turn -/

/-- A rational value of the sine in the first quarter turn is at one of its ends (R102). -/
theorem eq_zero_or_quarter_of_rational {p : Params} {φ : Nat} (hφ : φ ≤ p.quarterTurn)
    (h : ¬Irrational (Real.sin (2 * Real.pi * φ / p.turn))) : φ = 0 ∨ φ = p.quarterTurn := by
  obtain ⟨c, hc⟩ : p.turn ∣ 4 * φ := quarter_of_rational p φ (by simpa [Params.turn] using h)
  rw [turn_eq_four_quarters] at hc
  have hφc : φ = p.quarterTurn * c := by linarith
  obtain _ | _ | c := c
  · exact .inl (by simpa using hφc)
  · exact .inr (by simpa using hφc)
  · have : 0 < p.quarterTurn := Nat.two_pow_pos _
    nlinarith

/-- SINF is never at a tie: where twice the scaled sine is an integer, it is an even one. -/
theorem even_of_twice_scaledSine {p : Params} {φ f : Nat} (hφ : φ ≤ p.quarterTurn)
    (h : 2 * scaledSine p φ = f) : Even f := by
  have hrational : ¬Irrational (Real.sin (2 * Real.pi * φ / p.turn)) := by
    have hu := one_le_unit p
    have hsin : Real.sin (2 * Real.pi * φ / p.turn) = ((f / (2 * p.unit) : ℚ) : ℝ) := by
      push_cast
      rw [eq_div_iff (by positivity), ← h, scaledSine]
      ring
    exact not_not.2 ⟨_, hsin.symm⟩
  obtain rfl | rfl := eq_zero_or_quarter_of_rational hφ hrational
  · obtain rfl : f = 0 := by rw [scaledSine_zero, mul_zero] at h; exact_mod_cast h.symm
    exact Even.zero
  · obtain rfl : f = 2 * p.unit := by rw [scaledSine_quarter] at h; exact_mod_cast h.symm
    exact even_two_mul _

theorem sinQuarter_near (p : Params) {φ : Nat} (hφ : φ ≤ p.quarterTurn) :
    |(sinQuarter p φ : ℝ) - scaledSine p φ| < 1 / 2 := by
  obtain ⟨hlo, hhi⟩ := sinFloor_spec p φ hφ
  rw [mul_assoc, ← scaledSine] at hlo hhi
  rw [abs_lt, sinQuarter]
  obtain ⟨m, hm | hm⟩ := Nat.even_or_odd' (sinFloor p φ)
  · have hdiv : (sinFloor p φ + 1) / 2 = m := by omega
    rw [hm] at hlo hhi
    rw [hdiv]
    push_cast at hlo hhi
    constructor <;> linarith
  · have hdiv : (sinFloor p φ + 1) / 2 = m + 1 := by omega
    have hne : 2 * scaledSine p φ ≠ sinFloor p φ := fun heq =>
      Nat.not_even_iff_odd.2 ⟨m, hm⟩ (even_of_twice_scaledSine hφ heq)
    have hlt := lt_of_le_of_ne hlo hne.symm
    rw [hm] at hlt hhi
    rw [hdiv]
    push_cast at hlt hhi ⊢
    constructor <;> linarith

/-! ### The whole turn -/

theorem sinf_near (p : Params) {θ : Nat} (hθ : θ ≤ p.turn) : |(sinf p θ : ℝ) - scaledSine p θ| < 1 / 2 := by
  rw [turn_eq_four_quarters] at hθ
  simp only [sinf]
  split_ifs with h1 h2 h3
  · exact_mod_cast sinQuarter_near p h1
  · have h := sinQuarter_near p (φ := 2 * p.quarterTurn - θ) (by omega)
    rw [scaledSine_half_sub p h2] at h
    exact_mod_cast h
  · have h := sinQuarter_near p (φ := θ - 2 * p.quarterTurn) (by omega)
    rw [scaledSine_sub_half p (by omega)] at h
    rw [← abs_neg]
    push_cast
    convert h using 2
    ring
  · have h := sinQuarter_near p (φ := 4 * p.quarterTurn - θ) (by omega)
    rw [scaledSine_turn_sub p hθ] at h
    rw [← abs_neg]
    push_cast
    convert h using 2
    ring

theorem int_eq_of_abs_sub_lt_half {m n : Int} (h : |(m : ℝ) - n| < 1 / 2) : m = n := by
  have hlt : |m - n| < 1 := by
    have : |(m : ℝ) - n| < 1 := by linarith
    exact_mod_cast this
  exact sub_eq_zero.1 (Int.abs_lt_one_iff.1 hlt)

/-- Where the scaled sine is an integer, SINF is exact. -/
theorem sinf_eq_of_scaledSine {p : Params} {θ : Nat} (hθ : θ ≤ p.turn) {m : Int} (h : scaledSine p θ = m) :
    sinf p θ = m :=
  int_eq_of_abs_sub_lt_half (h ▸ sinf_near p hθ)

theorem abs_sinf_le_unit (p : Params) {θ : Nat} (hθ : θ ≤ p.turn) : |sinf p θ| ≤ p.unit := by
  have hnear := sinf_near p hθ
  have hsine := scaledSine_le_unit p θ
  have htri := abs_sub_abs_le_abs_sub (sinf p θ : ℝ) (scaledSine p θ)
  have hlt : |(sinf p θ : ℝ)| < p.unit + 1 := by linarith
  exact Int.lt_add_one_iff.1 (by exact_mod_cast hlt)

theorem sinf_zero (p : Params) : sinf p 0 = 0 :=
  sinf_eq_of_scaledSine (Nat.zero_le _) (by simp [scaledSine_zero])

theorem sinf_quarter (p : Params) : sinf p p.quarterTurn = p.unit :=
  sinf_eq_of_scaledSine (by rw [turn_eq_four_quarters]; omega) (by simp [scaledSine_quarter])

theorem sinf_half (p : Params) : sinf p (2 * p.quarterTurn) = 0 := by
  refine sinf_eq_of_scaledSine (by rw [turn_eq_four_quarters]; omega) ?_
  rw [← scaledSine_half_sub p le_rfl]
  simp [scaledSine_zero]

theorem sinf_three_quarters (p : Params) : sinf p (3 * p.quarterTurn) = -p.unit := by
  refine sinf_eq_of_scaledSine (by rw [turn_eq_four_quarters]; omega) ?_
  have h := scaledSine_sub_half p (θ := 3 * p.quarterTurn) (by omega)
  rw [show 3 * p.quarterTurn - 2 * p.quarterTurn = p.quarterTurn by omega, scaledSine_quarter] at h
  push_cast
  linarith

/-- Settles O21: in each quarter turn SINF is half the rounded-up floor of twice the scaled sine, which is no
odd integer since a rational sine is at a quarter point; the exact values are those of the near integer. -/
theorem sinfIsTheCorrectlyRoundedSine : Obligations.SinfIsTheCorrectlyRoundedSine := by
  unfold Obligations.SinfIsTheCorrectlyRoundedSine
  intro p
  have hturn : 2 ^ p.phaseW = 4 * p.quarterTurn := turn_eq_four_quarters p
  refine ⟨fun θ hθ => ⟨?near, ?bound, ?irrational⟩, sinf_zero p, ?quarter, ?half, ?threeQuarters, ?ex⟩
  case near => simpa [scaledSine, Params.unit, Params.turn] using sinf_near p hθ.le
  case bound => simpa [Params.unit] using abs_sinf_le_unit p hθ.le
  case irrational => exact fun h => not_not.1 (mt (quarter_of_rational p θ) h)
  case quarter =>
    rw [hturn, Nat.mul_div_cancel_left _ (by decide), sinf_quarter]
    simp [Params.unit]
  case half =>
    rw [hturn, show 4 * p.quarterTurn / 2 = 2 * p.quarterTurn by omega, sinf_half]
  case threeQuarters =>
    rw [hturn, show 3 * (4 * p.quarterTurn) / 4 = 3 * p.quarterTurn by omega, sinf_three_quarters]
    simp [Params.unit]
  case ex => decide +kernel

end Sys2Proof.Machine
end

section
/-! TUNE is the real increment rounded to nearest, ties to even (40_generate.md R101), from the floor that
`twiceYFloor_spec` gives. -/

namespace Sys2Proof.Machine
open Sys2Proof.Claims

/-- r is the integer nearest to y, the even one at a tie. -/
def RoundsToEven (y : ℝ) (r : Nat) : Prop := |y - r| ≤ 1 / 2 ∧ (|y - r| = 1 / 2 → Even r)

/-- At or above m and short of the tie. -/
theorem roundsToEven_below_tie {y : ℝ} {m : Nat} (hlo : (m : ℝ) ≤ y) (hhi : y < m + 1 / 2) :
    RoundsToEven y m := by
  rw [RoundsToEven, abs_of_nonneg (by linarith)]
  exact ⟨by linarith, fun h => by linarith⟩

/-- Above the tie and below m + 1. -/
theorem roundsToEven_above_tie {y : ℝ} {m : Nat} (hlo : m + 1 / 2 < y) (hhi : y < m + 1) :
    RoundsToEven y (m + 1) := by
  rw [RoundsToEven, abs_of_neg (by push_cast; linarith)]
  push_cast
  exact ⟨by linarith, fun h => by linarith⟩

/-- The tie between m and m + 1 goes to the even one. -/
theorem roundsToEven_at_tie {y : ℝ} {m r : Nat} (h : y = m + 1 / 2) (hr : r = m ∨ r = m + 1) (heven : Even r) :
    RoundsToEven y r := by
  refine ⟨?_, fun _ => heven⟩
  rw [abs_le]
  obtain rfl | rfl := hr
  · constructor <;> linarith
  · push_cast
    constructor <;> linarith

theorem yRounded_roundsToEven (p : Params) (freq : Word) (detune : BitVec 16) :
    RoundsToEven (tuneReal p freq detune.toInt) (yRounded p freq detune.toInt) := by
  obtain ⟨hlo, hhi⟩ := twiceYFloor_spec p freq detune
  have htie := twiceYIs_iff p freq detune.toInt (twiceYFloor p freq detune.toInt)
  simp only [yRounded]
  generalize twiceYFloor p freq detune.toInt = f at hlo hhi htie ⊢
  obtain ⟨m, rfl | rfl⟩ := Nat.even_or_odd' f
  · push_cast at hlo hhi
    rw [if_pos (by omega), Nat.mul_div_cancel_left m (by decide)]
    exact roundsToEven_below_tie (by linarith) (by linarith)
  · push_cast at hlo hhi htie
    rw [if_neg (by omega), show (2 * m + 1) / 2 = m by omega]
    split_ifs with h <;> simp only [Bool.and_eq_true, beq_iff_eq, htie] at h
    · exact roundsToEven_at_tie (by linarith [h.1]) (.inl rfl) (Nat.even_iff.2 h.2)
    · by_cases heq : (2 * m + 1 : ℝ) = 2 * tuneReal p freq detune.toInt
      · have hodd : ¬Even m := fun heven => h ⟨heq, Nat.even_iff.1 heven⟩
        exact roundsToEven_at_tie (by linarith) (.inr rfl) (Nat.even_add_one.2 hodd)
      · have hlt := lt_of_le_of_ne hlo heq
        exact roundsToEven_above_tie (by linarith) (by linarith)

/-- y is a rational multiple of 2^(d/3072), and not 0, so it is rational only for whole octaves. -/
theorem irrational_tuneReal (p : Params) {freq : Word} {d : Int} (hd : ¬(3072 : Int) ∣ d) (hfreq : freq ≠ 0) :
    Irrational (tuneReal p freq d) := by
  have hoctave : Irrational ((2 : ℝ) ^ ((d : ℝ) / 3072)) := fun ⟨x, hx⟩ =>
    hd (whole_octave_of_rational d x hx.symm)
  have hfactor : (freq.toNat / 2 ^ 16 * p.turn / p.sampleRate : ℚ) ≠ 0 := by
    have hf : (freq.toNat : ℚ) ≠ 0 := by
      exact_mod_cast fun h => hfreq (BitVec.eq_of_toNat_eq h)
    have hM : (p.turn : ℚ) ≠ 0 := by exact_mod_cast (turn_pos p).ne'
    have hr : (p.sampleRate : ℚ) ≠ 0 := by exact_mod_cast (Nat.one_le_iff_ne_zero.1 p.rate_legal.1)
    positivity
  have h := hoctave.ratCast_mul hfactor
  push_cast at h
  rw [tuneReal]
  convert h using 1
  ring

/-- R101's example: 440 Hz with the default parameters. -/
theorem tune_440 : tune Params.default (BitVec.ofNat 32 (440 * 2 ^ 16)) 0 = 0x028DDFB9 := by
  decide +kernel

/-- Settles O22: halving the floor of 2y, with the odd floor's tie sent to the even neighbour, is rounding y;
and 2^(d/3072) is irrational but for whole octaves. -/
theorem tuneIsTheRoundedIncrement : Obligations.TuneIsTheRoundedIncrement := by
  unfold Obligations.TuneIsTheRoundedIncrement
  refine ⟨fun p freq detune => ?_, tune_440⟩
  have hy : (freq.toNat / 2 ^ 16 * (2 : ℝ) ^ ((detune.toInt : ℝ) / 3072) * 2 ^ p.phaseW / p.sampleRate : ℝ) =
      tuneReal p freq detune.toInt := by
    simp [tuneReal, Params.turn]
  rw [hy]
  exact ⟨⟨_, rfl, yRounded_roundsToEven p freq detune⟩, irrational_tuneReal p⟩

end Sys2Proof.Machine
end

section
/-! The base waveforms as functions of the phase fraction u = θ / M (40_generate.md R106 to R110). -/

namespace Sys2Proof.Machine
open Sys2Proof.Claims

/-- u = θ / M, the part of a turn that a phase word stands for. -/
def phaseFraction (p : Params) (θ : Nat) : Rat := θ / p.turn

theorem phaseFraction_nonneg (p : Params) (θ : Nat) : 0 ≤ phaseFraction p θ := by
  unfold phaseFraction; positivity

theorem cast_turn_pos_rat (p : Params) : (0 : Rat) < p.turn := by exact_mod_cast turn_pos p

theorem phaseFraction_lt_one (p : Params) {θ : Nat} (hθ : θ < p.turn) : phaseFraction p θ < 1 := by
  rw [phaseFraction, div_lt_one (cast_turn_pos_rat p)]
  exact_mod_cast hθ

theorem phaseFraction_le_half_iff (p : Params) (θ : Nat) : phaseFraction p θ ≤ 1 / 2 ↔ θ ≤ p.halfTurn := by
  rw [phaseFraction, div_le_iff₀ (cast_turn_pos_rat p), turn_eq_two_halves]
  push_cast
  rw [← mul_assoc, one_div, inv_mul_cancel₀ two_ne_zero, one_mul, Nat.cast_le]

theorem phaseFraction_lt_half_iff (p : Params) (θ : Nat) : phaseFraction p θ < 1 / 2 ↔ θ < p.halfTurn := by
  rw [phaseFraction, div_lt_iff₀ (cast_turn_pos_rat p), turn_eq_two_halves]
  push_cast
  rw [← mul_assoc, one_div, inv_mul_cancel₀ two_ne_zero, one_mul, Nat.cast_lt]

theorem sawValue_eq (p : Params) (θ : Nat) :
    sawValue p θ = if phaseFraction p θ ≤ 1 / 2 then 2 * phaseFraction p θ else 2 * phaseFraction p θ - 2 := by
  simp only [sawValue, phaseFraction_le_half_iff]
  simp only [phaseFraction, mul_div_assoc]

theorem triangleValue_eq (p : Params) (θ : Nat) :
    triangleValue p θ =
      if phaseFraction p θ ≤ 1 / 2 then 4 * phaseFraction p θ - 1 else 3 - 4 * phaseFraction p θ := by
  simp only [triangleValue, phaseFraction_le_half_iff]
  simp only [phaseFraction, mul_div_assoc]

theorem pulseValue_eq (p : Params) (θ : Nat) :
    pulseValue p θ = if phaseFraction p θ < 1 / 2 then 1 else -1 := by
  simp only [pulseValue, phaseFraction_lt_half_iff]

/-- Up to the tie 1/2, which goes to the even 0, `rne` gives 0 (R107). -/
theorem rne_of_le_half {u : Rat} (h0 : 0 ≤ u) (h : u ≤ 1 / 2) : rne u = 0 := by
  have hlo : 0 ≤ rne u := le_rne_of_le (by exact_mod_cast h0)
  have hhi : rne u ≤ 1 := rne_le_of_le (by push_cast; linarith)
  have hne : rne u ≠ 1 := fun heq => by
    obtain ⟨hnear, htie⟩ := rne_spec u
    rw [heq, Int.cast_one, abs_of_nonpos (by linarith)] at hnear htie
    exact absurd (htie (by linarith)) (by decide)
  omega

theorem rne_of_half_lt {u : Rat} (h : 1 / 2 < u) (h1 : u < 1) : rne u = 1 := by
  have hhi : rne u ≤ 1 := rne_le_of_le (by exact_mod_cast h1.le)
  have hnear := (abs_le.1 (rne_spec u).1).2
  have hlo : 0 < rne u := by
    have : (0 : Rat) < rne u := by linarith
    exact_mod_cast this
  omega

/-- R93: the saw is twice the distance of u to the nearest whole turn. -/
theorem sawValue_eq_rne {p : Params} {θ : Nat} (hθ : θ < p.turn) :
    sawValue p θ = 2 * (phaseFraction p θ - rne (phaseFraction p θ)) := by
  rw [sawValue_eq]
  split_ifs with h
  · rw [rne_of_le_half (phaseFraction_nonneg p θ) h]
    simp
  · rw [rne_of_half_lt (not_le.1 h) (phaseFraction_lt_one p hθ)]
    push_cast
    ring

/-- R94: the triangle is the saw's size, scaled to [-1, 1]. -/
theorem triangleValue_eq_abs_saw {p : Params} {θ : Nat} (hθ : θ < p.turn) :
    triangleValue p θ = 2 * |sawValue p θ| - 1 := by
  have h0 := phaseFraction_nonneg p θ
  have h1 := phaseFraction_lt_one p hθ
  rw [triangleValue_eq, sawValue_eq]
  split_ifs
  · rw [abs_of_nonneg (by linarith)]
    ring
  · rw [abs_of_nonpos (by linarith)]
    ring

theorem cast_unit (p : Params) : (p.unit : Rat) = 2 ^ p.frac := by simp [Params.unit]

theorem sineValue_eq (p : Params) (θ : Nat) : sineValue p θ = sinf p θ / 2 ^ p.frac := by
  rw [sineValue, cast_unit]

theorem noiseValue_eq (p : Params) (nz : Word) :
    noiseValue p nz =
      (min (2 ^ p.frac) (max (-2 ^ p.frac) (nz.setWidth p.outW).toInt) : Int) / 2 ^ p.frac := by
  simp [noiseValue, clamp, sampleToInt, Params.unit]

/-- The codes that select sine: its own and the fallback codes (R105). -/
theorem effectiveWave_sine {c : BitVec 3} (hc : c = 0 ∨ c = 5 ∨ c = 6 ∨ c = 7) : effectiveWave c = .sine := by
  obtain rfl | rfl | rfl | rfl := hc <;> rfl

/-- Settles O24: each waveform's value is a case split on u, and u is at most 1/2 exactly up to the half turn. -/
theorem baseValuesOfTheWaveforms : Obligations.BaseValuesOfTheWaveforms := by
  unfold Obligations.BaseValuesOfTheWaveforms
  intro p θ nz hθ
  have hu : (θ / 2 ^ p.phaseW : Rat) = phaseFraction p θ := by simp [phaseFraction, Params.turn]
  rw [hu]
  refine ⟨fun c hc => ?sine, sawValue_eq p θ, sawValue_eq_rne hθ, triangleValue_eq p θ,
    triangleValue_eq_abs_saw hθ, pulseValue_eq p θ, noiseValue_eq p nz⟩
  case sine =>
    rw [effectiveWave_sine hc]
    exact sineValue_eq p θ

end Sys2Proof.Machine
end

section
/-! A sample word stands for the exact sum, rounded once and saturated (40_generate.md R103, R104, R111, R112). -/

namespace Sys2Proof.Machine
open Sys2Proof.Claims

/-- With HARM = 0 each overtone counts nothing, so the case of R111 needs no exception. -/
theorem overtoneSum_eq (p : Params) (harm : BitVec 16) (h : Overtone → Nat) :
    overtoneSum p harm h =
      (Overtone.all.map fun k => harmonicAmount harm / k.num * (sinf p (h k) / 2 ^ p.frac)).sum := by
  simp only [overtoneSum, sineValue_eq]
  split_ifs with hz
  · simp [hz, harmonicAmount]
  · rfl

theorem satS_eq_min_max (p : Params) (x : Int) :
    satS p x = min (2 ^ (p.outW - 1) - 1) (max (-2 ^ (p.outW - 1)) x) := by
  simp [satS, clamp]

theorem sampleToInt_sampleWord (s : State) (i : Nat) (nz : Word) :
    sampleToInt s.params (sampleWord s i nz) =
      sampleValue s.params (baseValue s.params (effectiveWave s.wave) (s.phaseAt i) nz)
        (overtoneSum s.params s.harm fun k => s.harmonicAt k i) :=
  sampleToInt_sampleOfInt _ _ (satS_mem _ _).1 (satS_mem _ _).2

/-- Settles O25: the saturated integer fits a sample word, so the word stands for it. -/
theorem sampleIsTheSumRoundedOnceAndSaturated : Obligations.SampleIsTheSumRoundedOnceAndSaturated := by
  unfold Obligations.SampleIsTheSumRoundedOnceAndSaturated
  intro s i nz
  refine ⟨?_, sampleOfInt_lt _ _⟩
  have h := sampleToInt_sampleWord s i nz
  rw [sampleValue, satS_eq_min_max, overtoneSum_eq, cast_unit] at h
  exact h

end Sys2Proof.Machine
end

section
/-! A GEN that has its noise words and whose host takes its samples (40_generate.md R114). -/

namespace Sys2Proof.Machine
open Sys2Proof.Claims

/-- s after the n samples of a complete GEN and its phase update, the host's readiness for samples then being
r. Only the response is left. -/
def afterGen (s : State) (n : Nat) (r : Readiness) : State := advancePhases n (afterSamples s 0 n r)

theorem exec_gen (n : Word) (s : State) : exec (.gen n) s = .next (genFrom n n.toNat s) := rfl

theorem exec_gen_complete {s : State} {n : Word} {r : Readiness} (hr : s.smpReady.takeMany n.toNat = some r)
    (hn : effectiveWave s.wave = .noise → n.toNat ≤ s.nz.length) :
    exec (.gen n) s = .next (respond 0 0 (afterGen s n.toNat r)) := by
  have h := genFrom_add n n.toNat 0 s r le_rfl hr hn
  rw [Nat.add_zero, Nat.sub_self] at h
  rw [exec_gen, h]
  rfl

/-- A waveform that is not noise does not look at the noise word. -/
theorem sampleWord_of_not_noise {s : State} (hw : effectiveWave s.wave ≠ .noise) (i : Nat) (nz nz' : Word) :
    sampleWord s i nz = sampleWord s i nz' := by
  have hbase : ∀ θ, baseValue s.params (effectiveWave s.wave) θ nz =
      baseValue s.params (effectiveWave s.wave) θ nz' := by
    intro θ
    cases hwave : effectiveWave s.wave with
    | noise => exact absurd hwave hw
    | _ => rfl
  rw [sampleWord, sampleWord, hbase]

theorem sampleWord_noiseAt (s : State) (i j : Nat) :
    sampleWord s i (noiseAt s j) = sampleWord s i (s.nz.getD j 0) := by
  by_cases hw : effectiveWave s.wave = .noise
  · rw [noiseAt, if_pos hw]
  · exact sampleWord_of_not_noise hw _ _ _

/-- The whole state after the samples, register by register (R114). -/
theorem afterGen_eq (s : State) (n : Nat) (r : Readiness) :
    afterGen s n r = { s with
      smp := s.smp ++ (List.range n).map fun i => sampleWord s i (s.nz.getD i 0)
      nz := if effectiveWave s.wave = .noise then s.nz.drop n else s.nz
      smpReady := r
      phase := BitVec.ofNat 32 (s.phaseAt n)
      hph := HarmonicPhases.ofFn fun k => BitVec.ofNat 32 (s.harmonicAt k n) } := by
  simp only [afterGen, afterSamples, Nat.zero_add, sampleWord_noiseAt]
  rfl

/-- A host that is always ready, or has credit for m words more than c, takes m words. -/
theorem takeMany_of_enough {m : Nat} {q r : Readiness}
    (h : (q = .always ∧ r = .always) ∨ ∃ c, q = .credit (c + m) ∧ r = .credit c) : q.takeMany m = some r := by
  obtain ⟨rfl, rfl⟩ | ⟨c, rfl, rfl⟩ := h
  · exact Readiness.takeMany_always m
  · simp

theorem exec_gen_answered {s : State} {n : Word} {r q : Readiness} (hr : s.smpReady.takeMany n.toNat = some r)
    (hn : effectiveWave s.wave = .noise → n.toNat ≤ s.nz.length) (hq : s.rspReady.take = some q) :
    exec (.gen n) s = .next (answered (afterGen s n.toNat r) q 0 0) := by
  rw [exec_gen_complete hr hn, respond_ready (s := afterGen s n.toNat r) hq]
  rfl

theorem exec_gen_waiting {s : State} {n : Word} {r : Readiness} (hr : s.smpReady.takeMany n.toNat = some r)
    (hn : effectiveWave s.wave = .noise → n.toNat ≤ s.nz.length) (hq : s.rspReady.take = none) :
    exec (.gen n) s = .next (waiting (afterGen s n.toNat r) 0 0) := by
  rw [exec_gen_complete hr hn, respond_held (s := afterGen s n.toNat r) hq]
  rfl

theorem State.Legal.phaseAt_zero {s : State} (hs : s.Legal) : BitVec.ofNat 32 (s.phaseAt 0) = s.phase := by
  apply BitVec.eq_of_toNat_eq
  rw [toNat_ofNat_phaseAt, State.phaseAt, Nat.zero_mul, Nat.add_zero, Nat.mod_eq_of_lt hs.phase_fits]

theorem State.Legal.harmonicAt_zero {s : State} (hs : s.Legal) (k : Overtone) :
    BitVec.ofNat 32 (s.harmonicAt k 0) = s.hph.get k := by
  apply BitVec.eq_of_toNat_eq
  rw [toNat_ofNat_harmonicAt, State.harmonicAt, Nat.zero_mul, Nat.zero_mul, Nat.add_zero,
    Nat.mod_eq_of_lt (hs.hph_fits k)]

/-- In a legal state no phase needs reducing, so a GEN of no samples changes nothing. -/
theorem State.Legal.afterGen_zero {s : State} (hs : s.Legal) : afterGen s 0 s.smpReady = s := by
  have hhph : (HarmonicPhases.ofFn fun k => BitVec.ofNat 32 (s.harmonicAt k 0)) = s.hph :=
    HarmonicPhases.ext_get fun k => by rw [HarmonicPhases.get_ofFn, hs.harmonicAt_zero]
  rw [afterGen_eq, hs.phaseAt_zero, hhph]
  simp

/-- Settles O26: a complete run of samples, then the phase update, then the response. -/
theorem genEmitsItsSamplesAndAdvancesThePhases : Obligations.GenEmitsItsSamplesAndAdvancesThePhases := by
  unfold Obligations.GenEmitsItsSamplesAndAdvancesThePhases
  refine ⟨fun s n r hn hready => ⟨fun q hq => ?answered, fun hq => ?waiting⟩, fun s q hs hq => ?zero⟩
  case answered =>
    rw [exec_gen_answered (takeMany_of_enough hready) hn hq, afterGen_eq]
    rfl
  case waiting =>
    rw [exec_gen_waiting (takeMany_of_enough hready) hn hq, afterGen_eq]
    rfl
  case zero =>
    have h : exec (.gen 0) s = .next (answered (afterGen s 0 s.smpReady) q 0 0) :=
      exec_gen_answered rfl (fun _ => Nat.zero_le _) hq
    rwa [hs.afterGen_zero] at h

end Sys2Proof.Machine
end

section
/-! Consecutive buffers (40_generate.md R116): a GEN goes on where the one before it ended. -/

namespace Sys2Proof.Machine
open Sys2Proof.Claims

/-- The sample words that a complete GEN n sends from state s. -/
def genSamples (s : State) (n : Nat) : List Word := (List.range n).map fun i => sampleWord s i (noiseAt s i)

@[simp] theorem length_genSamples (s : State) (n : Nat) : (genSamples s n).length = n := by simp [genSamples]

@[simp] theorem afterGen_smp (s : State) (n : Nat) (r : Readiness) :
    (afterGen s n r).smp = s.smp ++ genSamples s n := by
  simp [afterGen, afterSamples, genSamples]

@[simp] theorem afterGen_nz (s : State) (n : Nat) (r : Readiness) : (afterGen s n r).nz = noiseAfter s n := rfl

@[simp] theorem afterGen_phase (s : State) (n : Nat) (r : Readiness) :
    (afterGen s n r).phase = BitVec.ofNat 32 (s.phaseAt n) := rfl

@[simp] theorem afterGen_hph (s : State) (n : Nat) (r : Readiness) :
    (afterGen s n r).hph = HarmonicPhases.ofFn fun k => BitVec.ofNat 32 (s.harmonicAt k n) := rfl

theorem afterGen_phaseAt (s : State) (n j : Nat) (r : Readiness) :
    (afterGen s n r).phaseAt j = s.phaseAt (n + j) := by
  calc (afterGen s n r).phaseAt j
      = (s.phaseAt n + j * s.inc) % s.params.turn := by
        rw [State.phaseAt, afterGen_phase, toNat_ofNat_phaseAt]; rfl
    _ = s.phaseAt (n + j) := by
        rw [State.phaseAt, State.phaseAt, Nat.mod_add_mod, Nat.add_assoc, ← Nat.add_mul]

theorem afterGen_harmonicAt (s : State) (n j : Nat) (r : Readiness) (k : Overtone) :
    (afterGen s n r).harmonicAt k j = s.harmonicAt k (n + j) := by
  calc (afterGen s n r).harmonicAt k j
      = (s.harmonicAt k n + j * k.num * s.inc) % s.params.turn := by
        rw [State.harmonicAt, afterGen_hph, HarmonicPhases.get_ofFn, toNat_ofNat_harmonicAt]; rfl
    _ = s.harmonicAt k (n + j) := by
        rw [State.harmonicAt, State.harmonicAt, Nat.mod_add_mod, Nat.add_assoc, ← Nat.add_mul, ← Nat.add_mul]

/-- Sample j after a GEN n is sample n + j of the run before it. -/
theorem afterGen_sampleWord (s : State) (n j : Nat) (r : Readiness) (nz : Word) :
    sampleWord (afterGen s n r) j nz = sampleWord s (n + j) nz := by
  simp only [sampleWord, afterGen_phaseAt, afterGen_harmonicAt]
  rfl

/-! ### What states of one tone share -/

section SameTone

variable {s t : State} (h : SameTone s t)
include h

theorem sameTone_phaseAt (i : Nat) : t.phaseAt i = s.phaseAt i := by
  obtain ⟨hparams, -, hfreq, hdetune, -, hphase, -⟩ := h
  simp only [State.phaseAt, State.inc, hparams, hfreq, hdetune, hphase]

theorem sameTone_harmonicAt (k : Overtone) (i : Nat) : t.harmonicAt k i = s.harmonicAt k i := by
  obtain ⟨hparams, -, hfreq, hdetune, -, -, hhph⟩ := h
  simp only [State.harmonicAt, State.inc, hparams, hfreq, hdetune, hhph]

theorem sameTone_sampleWord (i : Nat) (nz : Word) : sampleWord t i nz = sampleWord s i nz := by
  obtain ⟨hparams, hwave, hfreq, hdetune, hharm, hphase, hhph⟩ := h
  exact sampleWord_congr hparams hwave hfreq hdetune hharm hphase hhph i nz

end SameTone

theorem sameTone_respond (c : BitVec 4) (d : Word) (s t : State) :
    SameTone (respond c d s) t ↔ SameTone s t := by
  simp [SameTone]

/-! ### A state that goes on where GEN n ended -/

section Continuation

variable {s t : State} {n : Nat} {r : Readiness} (htone : SameTone (afterGen s n r) t)
  (hnz : effectiveWave s.wave = .noise → t.nz = noiseAfter s n)
include htone

theorem continuation_wave : t.wave = s.wave := htone.2.1

theorem continuation_phaseAt (j : Nat) : t.phaseAt j = s.phaseAt (n + j) := by
  rw [sameTone_phaseAt htone, afterGen_phaseAt]

theorem continuation_harmonicAt (k : Overtone) (j : Nat) : t.harmonicAt k j = s.harmonicAt k (n + j) := by
  rw [sameTone_harmonicAt htone, afterGen_harmonicAt]

theorem continuation_sampleWord (j : Nat) (nz : Word) : sampleWord t j nz = sampleWord s (n + j) nz := by
  rw [sameTone_sampleWord htone, afterGen_sampleWord]

include hnz

theorem continuation_noiseAt (j : Nat) : noiseAt t j = noiseAt s (n + j) := by
  rw [noiseAt, noiseAt, continuation_wave htone]
  split_ifs with hw
  · rw [hnz hw, noiseAfter, if_pos hw, List.getD_eq_getElem?_getD, List.getElem?_drop,
      ← List.getD_eq_getElem?_getD]
  · rfl

theorem continuation_noiseAfter (hw : effectiveWave s.wave = .noise) (m : Nat) :
    noiseAfter t m = noiseAfter s (n + m) := by
  rw [noiseAfter, noiseAfter, continuation_wave htone, if_pos hw, if_pos hw, hnz hw, noiseAfter, if_pos hw,
    List.drop_drop]

theorem genSamples_add (m : Nat) : genSamples s (n + m) = genSamples s n ++ genSamples t m := by
  simp only [genSamples, List.range_add, List.map_append, List.map_map, continuation_sampleWord htone,
    continuation_noiseAt htone hnz]
  rfl

end Continuation

theorem takesAtLeast_of_le {m k : Nat} {q : Readiness} (h : TakesAtLeast m q) (hk : k ≤ m) :
    TakesAtLeast k q := by
  obtain rfl | ⟨c, rfl⟩ := h
  · exact .inl rfl
  · exact .inr ⟨c + (m - k), by congr 1; omega⟩

theorem takeMany_of_takesAtLeast {m : Nat} {q : Readiness} (h : TakesAtLeast m q) :
    ∃ r, q.takeMany m = some r := by
  obtain hq | ⟨c, hq⟩ := h
  · exact ⟨_, takeMany_of_enough (.inl ⟨hq, rfl⟩)⟩
  · exact ⟨_, takeMany_of_enough (.inr ⟨c, hq, rfl⟩)⟩

/-- The next state of a complete GEN, whether or not the host takes its response. -/
theorem next_of_exec_gen {s t : State} {n : Word} (h : exec (.gen n) s = .next t)
    (hn : effectiveWave s.wave = .noise → n.toNat ≤ s.nz.length) (hr : TakesAtLeast n.toNat s.smpReady) :
    ∃ r, t = respond 0 0 (afterGen s n.toNat r) := by
  obtain ⟨r, hr⟩ := takeMany_of_takesAtLeast hr
  rw [exec_gen_complete hr hn] at h
  exact ⟨r, (Host.Outcome.next.inj h).symm⟩

/-- Settles O31: the second GEN starts at the phases, and with the noise words, of sample n1 of the first. -/
theorem consecutiveBuffersJoinBitForBit : Obligations.ConsecutiveBuffersJoinBitForBit := by
  unfold Obligations.ConsecutiveBuffersJoinBitForBit
  intro s t t' u v n₁ n₂ hsum hnoise hready ht htone hnz hready' hu hv
  have hadd : (n₁ + n₂).toNat = n₁.toNat + n₂.toNat := BitVec.toNat_add_of_lt hsum
  obtain ⟨r₁, rfl⟩ := next_of_exec_gen ht (fun hw => (Nat.le_add_right _ _).trans (hnoise hw))
    (takesAtLeast_of_le hready (Nat.le_add_right _ _))
  rw [sameTone_respond] at htone
  simp only [respond_nz, afterGen_nz] at hnz
  have hnoise' : effectiveWave t'.wave = .noise → n₂.toNat ≤ t'.nz.length := by
    intro hw
    rw [continuation_wave htone] at hw
    have hlen := hnoise hw
    rw [hnz hw, noiseAfter, if_pos hw, List.length_drop]
    omega
  obtain ⟨r₂, rfl⟩ := next_of_exec_gen hu hnoise' hready'
  obtain ⟨r, rfl⟩ := next_of_exec_gen hv (by rwa [hadd]) (by rwa [hadd])
  refine ⟨genSamples s n₁.toNat, genSamples t' n₂.toNat, length_genSamples _ _, length_genSamples _ _,
    ?first, ?second, ?joined, ?phase, ?hph, fun hw => ?nz⟩
  case first => rw [respond_smp, afterGen_smp]
  case second => rw [respond_smp, afterGen_smp]
  case joined => rw [respond_smp, afterGen_smp, hadd, genSamples_add htone hnz]
  case phase => rw [respond_phase, respond_phase, afterGen_phase, afterGen_phase, hadd, continuation_phaseAt htone]
  case hph => simp only [respond_hph, afterGen_hph, hadd, continuation_harmonicAt htone]
  case nz => rw [respond_nz, respond_nz, afterGen_nz, afterGen_nz, hadd, continuation_noiseAfter htone hnz hw]

end Sys2Proof.Machine
end

section
/-! The register commands where the address names a register and the host takes the response
(41_control.md R131, R139, R140). -/

namespace Sys2Proof.Machine
open Sys2Proof.Claims

section Register

variable {a : BitVec 8} {r : Reg} {s : State} {q : Readiness}
  (hreg : regAt a = some r) (hq : s.rspReady.take = some q)
include hreg hq

/-- A write of a writable register stores the operand's legal part and responds OK (R131). -/
theorem exec_wrreg_answered (hrw : r.readOnly = false) (v : Word) :
    exec (.wrreg a v) s = .next (answered (writeReg r v s) q 0 0) := by
  have hq' : (writeReg r v s).rspReady.take = some q := by rwa [writeReg_rspReady]
  have hexec : execWrreg a v s = .next (respond 0 0 (writeReg r v s)) := by
    simp [execWrreg, hreg, hrw]
  rw [exec_wrreg, hexec, respond_ready hq']
  rfl

/-- A read responds with the register's value and changes no state (R140, R59). -/
theorem exec_rdreg_answered : exec (.rdreg a) s = .next (answered s q 0 (readReg r s)) := by
  have hexec : execRdreg a s = .next (respond 0 (readReg r s) s) := by simp [execRdreg, hreg]
  rw [exec_rdreg, hexec, respond_ready hq]
  rfl

end Register

/-- Settles O9: the three addresses are those of the read-only registers, and E_RO has code 4. -/
theorem readOnlyRegistersRejectWrites : Obligations.ReadOnlyRegistersRejectWrites := by
  unfold Obligations.ReadOnlyRegistersRejectWrites
  intro s a v q hq ha
  obtain ⟨r, hreg, hro⟩ := regAt_readOnly_of_addr ha
  have herr : raise .ro s = answered { s with err := true, ecode := 4 } q 4 0 := raise_eq_answered hq .ro
  rw [exec_wrreg_of_readOnly hreg hro, herr]

end Sys2Proof.Machine
end

section
/-! What each writable register takes of an operand (41_control.md R132 to R138). -/

namespace Sys2Proof.Machine
open Sys2Proof.Claims

theorem legalWave_eq_min (v : Word) : legalWave v = BitVec.ofNat 3 (min v.toNat 7) := by
  unfold legalWave
  split_ifs with h
  · rw [Nat.min_eq_left h]
  · rw [Nat.min_eq_right (by omega)]

/-- The clamped operand fits 16 bits, so DETUNE stands for it. -/
theorem toInt_legalDetune (v : Word) : (legalDetune v).toInt = clamp v.toInt (-32768) 32767 := by
  obtain ⟨hlo, hhi⟩ := clamp_mem v.toInt (lo := -32768) (hi := 32767) (by decide)
  exact BitVec.toInt_ofInt_eq_self (by decide) hlo (by omega)

theorem toNat_legalHarm (v : Word) : (legalHarm v).toNat = min v.toNat 0x8000 := by
  rw [legalHarm, BitVec.toNat_ofNat]
  omega

theorem toNat_legalPhase (p : Params) (v : Word) : (legalPhase p v).toNat = v.toNat % p.turn :=
  toNat_ofNat_mod_turn p v.toNat

theorem legalPhase_of_full_width {p : Params} (hp : p.phaseW = 32) (v : Word) : legalPhase p v = v := by
  apply BitVec.eq_of_toNat_eq
  rw [toNat_legalPhase, Params.turn, hp]
  exact Nat.mod_eq_of_lt v.isLt

/-- Bit 0 of the operand alone decides whether STATUS is cleared. -/
theorem clearStatus_eq (v : Word) (s : State) :
    clearStatus v s = if v.toNat % 2 = 1 then { s with err := false, ecode := 0 } else s := by
  simp [clearStatus, BitVec.getLsbD, Nat.testBit_zero]

/-- Settles O11: WAVE takes the smaller of the operand and 7. -/
theorem writeWaveClampsToSeven : Obligations.WriteWaveClampsToSeven := by
  unfold Obligations.WriteWaveClampsToSeven
  intro s v q hq
  rw [← legalWave_eq_min]
  exact exec_wrreg_answered (regAt_addr .wave) hq rfl v

/-- R133's example: 11025 Hz at 44100 samples a second is a quarter turn for each sample. -/
theorem tune_11025 : tune Params.default 0x2B110000 0 = 0x40000000 := by
  decide +kernel

/-- Settles O12: FREQ takes the operand as it is, and INC is computed from FREQ. -/
theorem writeFreqStoresTheOperand : Obligations.WriteFreqStoresTheOperand := by
  unfold Obligations.WriteFreqStoresTheOperand
  exact ⟨fun _ v _ hq => ⟨exec_wrreg_answered (regAt_addr .freq) hq rfl v, rfl⟩, tune_11025⟩

/-- Settles O13: DETUNE takes the clamped operand, which 16 bits hold. -/
theorem writeDetuneClampsTheSignedOperand : Obligations.WriteDetuneClampsTheSignedOperand := by
  unfold Obligations.WriteDetuneClampsTheSignedOperand
  exact fun _ v _ hq =>
    ⟨legalDetune v, toInt_legalDetune v, exec_wrreg_answered (regAt_addr .detune) hq rfl v⟩

/-- Settles O14: HARM takes the smaller of the operand and 0x8000, which 16 bits hold. -/
theorem writeHarmClampsToOne : Obligations.WriteHarmClampsToOne := by
  unfold Obligations.WriteHarmClampsToOne
  exact fun _ v _ hq =>
    ⟨legalHarm v, toNat_legalHarm v, exec_wrreg_answered (regAt_addr .harm) hq rfl v⟩

/-- Settles O15: a phase register takes the operand's phase word; as it is below a turn, sample 0 has that
phase. HPHk is at 0x04 + k, and a write of one overtone's phase leaves the others. -/
theorem writePhaseReducesModuloTheTurn : Obligations.WritePhaseReducesModuloTheTurn := by
  unfold Obligations.WritePhaseReducesModuloTheTurn
  intro s v q hq
  have hx : (legalPhase s.params v).toNat = v.toNat % s.params.turn := toNat_legalPhase s.params v
  refine ⟨legalPhase s.params v, hx, fun hp => legalPhase_of_full_width hp v,
    exec_wrreg_answered (regAt_addr .phase) hq rfl v, ?sampleZero, fun hhalf => ?halfTurn, fun k => ?overtone⟩
  case sampleZero =>
    have hlt : (legalPhase s.params v).toNat < s.params.turn := hx ▸ Nat.mod_lt _ (turn_pos _)
    simpa [State.phaseAt, answered] using Nat.mod_eq_of_lt hlt
  case halfTurn =>
    have hturn : 2 ^ s.params.phaseW = 4 * s.params.quarterTurn := turn_eq_four_quarters s.params
    rw [hhalf, hturn, show 4 * s.params.quarterTurn / 2 = 2 * s.params.quarterTurn by omega, sinf_half]
  case overtone =>
    refine ⟨s.hph.set k (legalPhase s.params v), ?_, fun j hj => ?_,
      exec_wrreg_answered (regAt_addr (.hph k)) hq rfl v⟩
    · rw [HarmonicPhases.get_set, if_pos rfl]
    · rw [HarmonicPhases.get_set, if_neg hj]

/-- Settles O16: STATUS is writable, and bit 0 of the operand decides what the write does. -/
theorem writeStatusClearsOnBitZero : Obligations.WriteStatusClearsOnBitZero := by
  unfold Obligations.WriteStatusClearsOnBitZero
  intro s v q hq
  rw [← clearStatus_eq]
  exact exec_wrreg_answered (regAt_addr .status) hq rfl v

end Sys2Proof.Machine
end

section
/-! The table of `read_reg` (41_control.md R141): each of the sixteen registers reads the value of its row. -/

namespace Sys2Proof.Machine
open Sys2Proof.Claims

/-- The sixteen registers, in the order of their addresses. -/
def Reg.all : List Reg :=
  [.wave, .freq, .detune, .harm, .inc, .phase] ++ Overtone.all.map .hph ++ [.status, .caps, .srate]

/-- The fields of STATUS as one number: ERR is bit 0 and ECODE starts at bit 4. -/
theorem statusWord_eq (err : Bool) (ecode : BitVec 4) :
    statusWord err ecode = BitVec.ofNat 32 (2 ^ 4 * ecode.toNat + err.toNat) := by
  revert err ecode
  decide

/-- A byte below the others is the low digit of the number in base 2^8. -/
theorem toNat_append_byte {n : Nat} (x : BitVec n) {b : Nat} (hb : b < 2 ^ 8) :
    (x ++ BitVec.ofNat 8 b).toNat = x.toNat * 2 ^ 8 + b := by
  rw [BitVec.toNat_append, BitVec.toNat_ofNat, Nat.mod_eq_of_lt hb, ← Nat.shiftLeft_add_eq_or_of_lt hb,
    Nat.shiftLeft_eq]

/-- The fields of CAPS as one number: the widths are at most 32, so each fits its byte. -/
theorem capsWord_eq (p : Params) :
    capsWord p = BitVec.ofNat 32 (p.phaseW + 2 ^ 8 * p.outW + 2 ^ 16 * p.frac + 2 ^ 24) := by
  have hphaseW := p.phaseW_legal
  have houtW := p.outW_legal
  apply BitVec.eq_of_toNat_eq
  rw [capsWord, toNat_append_byte _ (by omega), toNat_append_byte _ (by omega), toNat_append_byte _ (by omega),
    BitVec.toNat_ofNat, BitVec.toNat_ofNat, interfaceVersion]
  omega

/-- The table of R141 lists every register at its address with the value that `read_reg` returns. -/
theorem registerTable_eq (s : State) : registerTable s = Reg.all.map fun r => (r.addr, readReg r s) := by
  simp only [registerTable, Reg.all, Overtone.all, List.map_cons, List.map_nil, List.cons_append,
    List.nil_append, readReg, BitVec.signExtend, ← BitVec.ofNat_toNat, statusWord_eq, capsWord_eq]
  rfl

/-- Settles O17: every row of the table is a register's, and a read of it responds with its value. -/
theorem readsReturnTheRegisterTable : Obligations.ReadsReturnTheRegisterTable := by
  unfold Obligations.ReadsReturnTheRegisterTable
  intro s q hq x hx
  rw [registerTable_eq] at hx
  obtain ⟨r, -, rfl⟩ := List.mem_map.1 hx
  exact exec_rdreg_answered (regAt_addr r) hq

end Sys2Proof.Machine
end

section
/-! The commands without an operand, NOP and RSTPH (41_control.md R130, R142). -/

namespace Sys2Proof.Machine
open Sys2Proof.Claims

/-- NOP and RSTPH have one word each: every other word with their OP has a field that is not 0 (R78). -/
theorem decode_of_ne_bare_word {w : CmdWord} (hop : opField w = 0 ∨ opField w = 4)
    (hne : w ≠ packFields (opField w) 0 0) : decode w = .error .rsvd := by
  have hfields : ¬(addrField w = 0 ∧ rsvdField w = 0 ∧ dataField w = 0) := by
    rintro ⟨haddr, hrsvd, hdata⟩
    have hw := packFields_fields w hrsvd
    rw [haddr, hdata] at hw
    exact hne hw.symm
  obtain h | h := hop
  · rw [decode_of_op_nop h, if_neg hfields]
  · rw [decode_of_op_rstph h, if_neg hfields]

theorem exec_nop_answered {s : State} {q : Readiness} (hq : s.rspReady.take = some q) :
    exec .nop s = .next (answered s q 0 0) :=
  congrArg Host.Outcome.next (respond_ready hq 0 0)

theorem exec_rstph_answered {s : State} {q : Readiness} (hq : s.rspReady.take = some q) :
    exec .rstph s = .next (answered (resetPhases s) q 0 0) :=
  congrArg Host.Outcome.next (respond_ready (s := resetPhases s) hq 0 0)

/-- Settles O18: NOP has only its response to send, and OP 0 with all other fields 0 is the word 0. -/
theorem nopOnlyResponds : Obligations.NopOnlyResponds := by
  unfold Obligations.NopOnlyResponds
  refine ⟨fun _ _ => exec_nop_answered, by rfl, fun w hop hne => decode_of_ne_bare_word (.inl hop) ?_⟩
  rwa [hop]

/-- With every phase 0, sample 0 of a sine is 0: so are the sine and each overtone (R106, R111). -/
theorem sampleWord_zero_of_zero_phases {s : State} (hwave : effectiveWave s.wave = .sine) (hphase : s.phase = 0)
    (hhph : ∀ k, s.hph.get k = 0) (nz : Word) : sampleWord s 0 nz = 0 := by
  have hθ : s.phaseAt 0 = 0 := by simp [State.phaseAt, hphase]
  have hθk : ∀ k, s.harmonicAt k 0 = 0 := fun k => by simp [State.harmonicAt, hhph]
  have hsine : sineValue s.params 0 = 0 := by simp [sineValue, sinf_zero]
  have hbase : baseValue s.params (effectiveWave s.wave) 0 nz = 0 := by rw [hwave, baseValue, hsine]
  have hover : (overtoneSum s.params s.harm fun _ => 0) = 0 := by simp [overtoneSum, hsine, Overtone.all]
  have hsat : satS s.params 0 = 0 := by simp [satS_eq_min_max, one_le_pow₀]
  have hvalue : sampleValue s.params 0 0 = 0 := by
    rw [sampleValue, add_zero, mul_zero, rne_of_le_half le_rfl (by norm_num), hsat]
  simp only [sampleWord, hθ, hθk, hbase, hover, hvalue, sampleOfInt]
  simp

/-- Settles O19: RSTPH zeroes the phases, and a state with every phase 0 is coherent, starts a sine at 0, and
is what a second RSTPH leaves. -/
theorem rstphZeroesEveryPhase : Obligations.RstphZeroesEveryPhase := by
  unfold Obligations.RstphZeroesEveryPhase
  refine ⟨fun s q hq => ⟨HarmonicPhases.zero, HarmonicPhases.get_zero, exec_rstph_answered hq,
    State.coherent_of_zero rfl rfl, fun hwave nz => ?silent, fun q' hq' => exec_rstph_answered hq'⟩,
    by rfl, fun w hop hne => decode_of_ne_bare_word (.inr hop) ?word⟩
  case silent =>
    exact sampleWord_zero_of_zero_phases (s := answered (resetPhases s) q 0 0) hwave rfl
      HarmonicPhases.get_zero nz
  case word => rwa [hop]

end Sys2Proof.Machine
end

section
/-! Taking an error (R154): STATUS and the response are all that changes, whether or not the host takes it. -/

namespace Sys2Proof.Machine
open Sys2Proof.Claims

/-- A host that does not take the error's response keeps the command waiting, with only STATUS changed
(R154, R56). -/
theorem raise_eq_waiting {s : State} (hnone : s.rspReady.take = none) (e : ErrorCode) :
    raise e s = waiting { s with err := true, ecode := e.code } e.code 0 :=
  raise_held hnone e

/-- The codes of R151, from E_OPCODE up. -/
theorem errorCode_codes :
    ErrorCode.opcode.code = 1 ∧ ErrorCode.rsvd.code = 2 ∧ ErrorCode.addr.code = 3 ∧ ErrorCode.ro.code = 4 :=
  ⟨rfl, rfl, rfl, rfl⟩

/-- Settles O8: the error's response moves, or the command waits with it, by whether the host takes it. -/
theorem takingAnErrorRecordsAndResponds : Obligations.TakingAnErrorRecordsAndResponds := by
  unfold Obligations.TakingAnErrorRecordsAndResponds
  exact fun s e => ⟨fun q hq => raise_eq_answered hq e, fun hnone => raise_eq_waiting hnone e, errorCode_codes⟩

end Sys2Proof.Machine
end

section
/-! The reset state, and the step that enters it (70_reset_and_hazards.md R170). -/

namespace Sys2Proof.Machine
open Sys2Proof.Claims

/-- Without a frequency there is no phase increment, whatever the detune: the real increment is 0, and 0 is
the one natural number within 1/2 of it (R101). -/
theorem tune_zero (p : Params) (detune : BitVec 16) : tune p 0 detune = 0 := by
  have hreal : tuneReal p 0 detune.toInt = 0 := by simp [tuneReal]
  obtain ⟨hnear, -⟩ := yRounded_roundsToEven p 0 detune
  rw [hreal, zero_sub, abs_neg, Nat.abs_cast] at hnear
  have hlt : yRounded p 0 detune.toInt < 1 := by exact_mod_cast hnear.trans_lt one_half_lt_one
  rw [tune, Nat.lt_one_iff.1 hlt, Nat.zero_mod]

/-- Each width fits its byte, so CAPS reads as the sum of its fields (R30). -/
theorem toNat_capsWord (p : Params) :
    (capsWord p).toNat = p.phaseW + 2 ^ 8 * p.outW + 2 ^ 16 * p.frac + 2 ^ 24 := by
  have hphaseW := p.phaseW_legal
  have houtW := p.outW_legal
  rw [capsWord_eq, BitVec.toNat_ofNat, Nat.mod_eq_of_lt (by omega)]

theorem toNat_srateWord (p : Params) : (srateWord p).toNat = p.sampleRate := by
  rw [srateWord, BitVec.toNat_ofNat, Nat.mod_eq_of_lt p.rate_legal.2]

theorem resetOf_inResetState (p : Params) : InResetState (State.resetOf p) :=
  ⟨rfl, rfl, rfl, rfl, rfl, HarmonicPhases.get_zero, rfl, rfl, tune_zero p 0, toNat_capsWord p,
    toNat_srateWord p, rfl⟩

/-- A reset keeps the streams that R171 says stay; the registers and the command in progress are those of the
reset state. -/
theorem applyReset_inResetState (s : State) : InResetState (applyReset s) := resetOf_inResetState s.params

theorem step_of_rst {s : State} (hrst : s.rst = true) : step s = .next (applyReset s) := by
  simpa [hrst] using step_cases s

/-- Settles O50: both states have the registers of the reset state, where INC is 0 since FREQ is. -/
theorem resetEntersTheResetState : Obligations.ResetEntersTheResetState := by
  unfold Obligations.ResetEntersTheResetState
  exact ⟨fun p => ⟨resetOf_inResetState p, rfl⟩,
    fun s hrst => ⟨applyReset s, step_of_rst hrst, applyReset_inResetState s, rfl, rfl, rfl⟩, rfl⟩

end Sys2Proof.Machine
end

section
/-! Encoding and decoding are inverse to each other (30_encoding.md R70 to R76). -/

namespace Sys2Proof.Machine
open Sys2Proof.Claims

/-- The fields of a packed word are the command's own, so the decoder reads the command back (R75). -/
theorem decode_encode (i : Instr) : decode (encode i) = .ok i := by
  cases i with
  | nop => exact (decode_of_op_nop (by simp [encode])).trans (by simp [encode])
  | wrreg a v => exact (decode_of_op_wrreg (by simp [encode])).trans (by simp [encode])
  | rdreg a => exact (decode_of_op_rdreg (by simp [encode])).trans (by simp [encode])
  | gen n => exact (decode_of_op_gen (by simp [encode])).trans (by simp [encode])
  | rstph => exact (decode_of_op_rstph (by simp [encode])).trans (by simp [encode])

/-- A command word is its own 64-bit number (R70). -/
theorem ofNat_toNat_mod_two_pow (w : CmdWord) : BitVec.ofNat 64 (w.toNat % 2 ^ 64) = w := by
  rw [Nat.mod_eq_of_lt w.isLt, BitVec.ofNat_toNat, BitVec.setWidth_eq]

theorem decodeTableWord_toNat {w : CmdWord} {i : Instr} (h : decode w = .ok i) :
    decodeTableWord 64 w.toNat = some i := by
  rw [decodeTableWord, ofNat_toNat_mod_two_pow, h]
  rfl

/-- Settles O1: the decoder reads the packed fields back, and a command word is its own number. -/
theorem decodeOfEncodeIsTheCommand : Obligations.DecodeOfEncodeIsTheCommand := by
  unfold Obligations.DecodeOfEncodeIsTheCommand
  exact fun i => ⟨decode_encode i, decodeTableWord_toNat (decode_encode i)⟩

/-- A check of the decoder that answers a command has passed. -/
theorem check_of_ite_eq_ok {c : Prop} [Decidable c] {e : ErrorCode} {i j : Instr}
    (h : (if c then .ok j else .error e : Except ErrorCode Instr) = .ok i) : c ∧ j = i := by
  split at h
  · exact ⟨‹c›, Except.ok.inj h⟩
  · cases h

/-- A word that decodes has its command's OP and operands, and 0 in every other field (R78). -/
theorem encode_of_decode_eq_ok {w : CmdWord} {i : Instr} (h : decode w = .ok i) : encode i = w := by
  have hop : (opField w).toNat < 5 := by
    by_contra hop
    rw [decode_of_illegal_op (Nat.not_lt.1 hop)] at h
    cases h
  have hpack := packFields_fields w
  obtain hop | hop | hop | hop | hop := opField_cases hop <;> rw [hop] at hpack
  · obtain ⟨⟨haddr, hrsvd, hdata⟩, rfl⟩ := check_of_ite_eq_ok ((decode_of_op_nop hop).symm.trans h)
    rw [haddr, hdata] at hpack
    exact hpack hrsvd
  · obtain ⟨hrsvd, rfl⟩ := check_of_ite_eq_ok ((decode_of_op_wrreg hop).symm.trans h)
    exact hpack hrsvd
  · obtain ⟨⟨hrsvd, hdata⟩, rfl⟩ := check_of_ite_eq_ok ((decode_of_op_rdreg hop).symm.trans h)
    rw [hdata] at hpack
    exact hpack hrsvd
  · obtain ⟨⟨haddr, hrsvd⟩, rfl⟩ := check_of_ite_eq_ok ((decode_of_op_gen hop).symm.trans h)
    rw [haddr] at hpack
    exact hpack hrsvd
  · obtain ⟨⟨haddr, hrsvd, hdata⟩, rfl⟩ := check_of_ite_eq_ok ((decode_of_op_rstph hop).symm.trans h)
    rw [haddr, hdata] at hpack
    exact hpack hrsvd

/-- Settles O2: the checks that a decoded word has passed fix all four of its fields. -/
theorem decodedWordIsTheCommandsWord : Obligations.DecodedWordIsTheCommandsWord := by
  unfold Obligations.DecodedWordIsTheCommandsWord
  exact fun _ _ => encode_of_decode_eq_ok

theorem encodesItsRow (i : Instr) : Laws.EncodesItsRow.Statement i := by
  cases i with
  | nop => exact Laws.EncodesItsRow.nop
  | wrreg a v => exact Laws.EncodesItsRow.wrreg a v
  | rdreg a => exact Laws.EncodesItsRow.rdreg a
  | gen n => exact Laws.EncodesItsRow.gen n
  | rstph => exact Laws.EncodesItsRow.rstph

theorem spells_iff {r : OpcodeRow} {w : CmdWord} : r.spells w = true ↔ w &&& r.mask = r.pattern := beq_iff_eq

/-- A decoded word spells its command's row, as the command's word does (R76). -/
theorem row_of_decode_eq_ok {w : CmdWord} {i : Instr} (h : decode w = .ok i) :
    i.row ∈ opcodeTable ∧ w &&& i.row.mask = i.row.pattern := by
  obtain rfl := encode_of_decode_eq_ok h
  obtain ⟨hmem, hspells⟩ := encodesItsRow i
  exact ⟨hmem, spells_iff.1 hspells⟩

/-- A word that spells a row has the fields which the decoder asks of that row's command (R76). -/
theorem exists_decode_eq_ok_of_row {w : CmdWord} {r : OpcodeRow} (hr : r ∈ opcodeTable)
    (hw : w &&& r.mask = r.pattern) : ∃ i, decode w = .ok i ∧ i.row = r := by
  obtain ⟨hnop, hwrreg, hrdreg, hgen, hrstph⟩ := spells_iff_fields w
  simp only [opcodeTable, List.mem_cons, List.not_mem_nil, or_false] at hr
  rw [← spells_iff] at hw
  obtain rfl | rfl | rfl | rfl | rfl := hr
  · obtain ⟨hop, hfields⟩ := hnop.1 hw
    exact ⟨_, (decode_of_op_nop hop).trans (if_pos hfields), rfl⟩
  · obtain ⟨hop, hrsvd⟩ := hwrreg.1 hw
    exact ⟨_, decode_of_wrreg_fields hop hrsvd, rfl⟩
  · obtain ⟨hop, hrsvd, hdata⟩ := hrdreg.1 hw
    exact ⟨_, decode_of_rdreg_fields hop hrsvd hdata, rfl⟩
  · obtain ⟨hop, hfields⟩ := hgen.1 hw
    exact ⟨_, (decode_of_op_gen hop).trans (if_pos hfields), rfl⟩
  · obtain ⟨hop, hfields⟩ := hrstph.1 hw
    exact ⟨_, (decode_of_op_rstph hop).trans (if_pos hfields), rfl⟩

/-- Settles O3: decoding and spelling a row say the same of a word, and a word decodes to one command. -/
theorem wordsDecodeByTheOpcodeTable : Obligations.WordsDecodeByTheOpcodeTable := by
  unfold Obligations.WordsDecodeByTheOpcodeTable
  refine fun w => ⟨fun i => row_of_decode_eq_ok, fun r => exists_decode_eq_ok_of_row, ?disjoint, ?rejected⟩
  case disjoint =>
    intro r hr r' hr' hw hw'
    obtain ⟨i, hi, rfl⟩ := exists_decode_eq_ok_of_row hr hw
    obtain ⟨j, hj, rfl⟩ := exists_decode_eq_ok_of_row hr' hw'
    rw [Except.ok.inj (hi.symm.trans hj)]
  case rejected =>
    intro hnone
    cases h : decode w with
    | error e => exact ⟨e, rfl⟩
    | ok i =>
      obtain ⟨hmem, hspells⟩ := row_of_decode_eq_ok h
      exact absurd hspells (hnone _ hmem)

/-- Settles O4: a closed evaluation of the decoder at ten words. -/
theorem writtenOutWordsDecode : Obligations.WrittenOutWordsDecode := by
  unfold Obligations.WrittenOutWordsDecode
  decide

end Sys2Proof.Machine
end

section
/-! The words of the streams as bytes, least significant first, and a response as one word (20_memory.md R57,
30_encoding.md R82). -/

namespace Sys2Proof.Machine
open Sys2Proof.Claims

/-- Bytes in front of others are read back alone (R57). -/
theorem ofBytesLE_take_bytesLE (n v : Nat) (rest : List Byte) :
    ofBytesLE ((bytesLE n v ++ rest).take n) = v % 256 ^ n := by
  rw [List.take_left' (length_bytesLE n v), ofBytesLE_bytesLE]

theorem drop_bytesLE_append (n v : Nat) (rest : List Byte) : (bytesLE n v ++ rest).drop n = rest :=
  List.drop_left' (length_bytesLE n v)

/-- n bytes carry a number of at most 8n bits (R57). -/
theorem ofBytesLE_bytesLE_of_lt {n v : Nat} (hv : v < 256 ^ n) : ofBytesLE (bytesLE n v) = v := by
  rw [ofBytesLE_bytesLE, Nat.mod_eq_of_lt hv]

theorem decodeBytes_cmdBytes (w : CmdWord) (rest : List Byte) :
    decodeBytes (cmdBytes w ++ rest) = some (decode w, rest) := by
  rw [decodeBytes, if_neg (by simp [cmdBytes]), cmdBytes, ofBytesLE_take_bytesLE, drop_bytesLE_append,
    show 256 ^ 8 = 2 ^ 64 by norm_num, ofNat_toNat_mod_two_pow]

/-- Settles O5: eight bytes carry a 64-bit number, and byte j is its bits from 8j on. -/
theorem commandBytesAreLittleEndian : Obligations.CommandBytesAreLittleEndian := by
  unfold Obligations.CommandBytesAreLittleEndian
  exact fun w rest => ⟨decodeBytes_cmdBytes w rest, bytesLE_eq_map 8 w.toNat⟩

/-- Status stands above the 32 bits of data (R82). -/
theorem Response.toNat_pack (r : Response) : r.pack.toNat = r.status.toNat * 2 ^ 32 + r.data.toNat := by
  rw [Response.pack, BitVec.toNat_append, ← Nat.shiftLeft_add_eq_or_of_lt r.data.isLt, Nat.shiftLeft_eq]

theorem Response.unpack_pack (r : Response) : Response.unpack r.pack = r := by
  rw [Response.unpack, Response.pack, BitVec.extractLsb'_append_eq_left, BitVec.extractLsb'_append_eq_right]

/-- Settles O6: appending puts the status above the data, and each part is cut out again. -/
theorem responseWordLayout : Obligations.ResponseWordLayout := by
  unfold Obligations.ResponseWordLayout
  exact fun r => ⟨r.toNat_pack, r.unpack_pack⟩

/-- The bytes of a sample word have room for its OUT_W bits (log entry 8). -/
theorem two_pow_outW_le (p : Params) : 2 ^ p.outW ≤ 256 ^ sampleByteCount p := by
  rw [show 256 = 2 ^ 8 by rfl, ← pow_mul]
  exact Nat.pow_le_pow_right (by decide) (by unfold sampleByteCount; omega)

theorem ofBytesLE_sampleBytes {p : Params} {w : Word} (hw : SampleFits p w) :
    ofBytesLE (sampleBytes p w) = w.toNat :=
  ofBytesLE_bytesLE_of_lt (hw.trans_le (two_pow_outW_le p))

theorem noiseOfBytes_sampleBytes {p : Params} {w : Word} (hw : SampleFits p w) (rest : List Byte) :
    noiseOfBytes p (sampleBytes p w ++ rest) = some (w, rest) := by
  rw [noiseOfBytes, if_neg (by simp [sampleBytes]), sampleBytes, ofBytesLE_take_bytesLE, drop_bytesLE_append,
    Nat.mod_eq_of_lt (hw.trans_le (two_pow_outW_le p)), Nat.mod_eq_of_lt hw, BitVec.ofNat_toNat,
    BitVec.setWidth_eq]

/-- Settles O53: a response fills 36 of its 40 bits and a sample word OUT_W of its whole bytes, so the bytes
carry the number. -/
theorem otherWordsBytesAreLittleEndian : Obligations.OtherWordsBytesAreLittleEndian := by
  unfold Obligations.OtherWordsBytesAreLittleEndian
  exact ⟨fun r => ⟨bytesLE_eq_map 5 r.pack.toNat,
      ofBytesLE_bytesLE_of_lt (r.pack.isLt.trans (by norm_num))⟩,
    fun p w hw => ⟨bytesLE_eq_map _ w.toNat, ofBytesLE_sampleBytes hw, noiseOfBytes_sampleBytes hw,
      fun bs hbs => if_pos hbs⟩⟩

end Sys2Proof.Machine
end

section
/-! What a command can do, said once (40_generate.md, 41_control.md): it takes an error, it comes to its
response, or it is a GEN that is held at a sample. -/

namespace Sys2Proof.Machine
open Sys2Proof.Claims

/-- The command i, run in s, comes to its response {0, d}, the state before that response being s₀. -/
inductive Completes : Instr → State → Word → State → Prop
  | nop (s : State) : Completes .nop s 0 s
  | write {a : BitVec 8} {r : Reg} (v : Word) (s : State) (hreg : regAt a = some r) (hrw : r.readOnly = false) :
    Completes (.wrreg a v) s 0 (writeReg r v s)
  | read {a : BitVec 8} {r : Reg} (s : State) (hreg : regAt a = some r) :
    Completes (.rdreg a) s (readReg r s) s
  | gen {n : Word} {s : State} {r : Readiness} (hr : s.smpReady.takeMany n.toNat = some r)
    (hn : effectiveWave s.wave = .noise → n.toNat ≤ s.nz.length) :
    Completes (.gen n) s 0 (afterGen s n.toNat r)
  | rstph (s : State) : Completes .rstph s 0 (resetPhases s)

/-- s after m samples of a GEN n, held for the noise word of sample m (R113, R56). -/
def heldForNoise (n : Word) (m : Nat) (r : Readiness) (s : State) : State :=
  { afterSamples s 0 m r with busy := some (.gen n m none) }

/-- s after m samples of a GEN n, held with sample m computed, until the host takes it (R113, R56). -/
def heldForHost (n : Word) (m : Nat) (r : Readiness) (s : State) : State :=
  { afterSamples s 0 m r with
    nz := noiseAfter s (m + 1)
    busy := some (.gen n m (some (sampleWord s m (noiseAt s m)))) }

/-- The states in which a GEN n that runs in s can be held at a sample. -/
inductive GenHeld (n : Word) (s : State) : State → Prop
  | noise {m : Nat} {r : Readiness} (hm : m < n.toNat) (hw : effectiveWave s.wave = .noise)
    (hz : s.nz.length = m) : GenHeld n s (heldForNoise n m r s)
  | host {m : Nat} {r : Readiness} (hm : m < n.toNat) (hn : effectiveWave s.wave = .noise → m < s.nz.length) :
    GenHeld n s (heldForHost n m r s)

theorem addrDefined_of_regAt {a : BitVec 8} {r : Reg} (hreg : regAt a = some r) : addrDefined a = true := by
  by_contra h
  simp [(regAt_eq_none_iff a).2 (Bool.not_eq_true _ ▸ h)] at hreg

theorem wellFormed_wrreg {a : BitVec 8} {r : Reg} (hreg : regAt a = some r) (v : Word) :
    (Instr.wrreg a v).wellFormed = !r.readOnly := by
  rw [Instr.wellFormed, addrDefined_of_regAt hreg, readOnly_iff hreg, Bool.not_not, Bool.true_and]

/-- A command that is not well-formed takes E_ADDR or E_RO, whatever the state (R79). -/
theorem exec_of_not_wellFormed {i : Instr} (hi : i.wellFormed = false) :
    ∃ e : ErrorCode, (e = .addr ∨ e = .ro) ∧ ∀ s, exec i s = .next (raise e s) := by
  cases i with
  | wrreg a v =>
    cases hreg : regAt a with
    | none => exact ⟨.addr, .inl rfl, exec_wrreg_of_regAt_none hreg v⟩
    | some r =>
      rw [wellFormed_wrreg hreg, Bool.not_eq_false'] at hi
      exact ⟨.ro, .inr rfl, exec_wrreg_of_readOnly hreg hi v⟩
  | rdreg a => exact ⟨.addr, .inl rfl, exec_rdreg_of_regAt_none ((regAt_eq_none_iff a).2 hi)⟩
  | nop => cases hi
  | gen n => cases hi
  | rstph => cases hi

/-- A command that comes to its response is well-formed (R79). -/
theorem Completes.wellFormed {i : Instr} {s s₀ : State} {d : Word} (h : Completes i s d s₀) :
    i.wellFormed = true := by
  cases h with
  | write v s hreg hrw => rw [wellFormed_wrreg hreg, hrw]; rfl
  | read s hreg => exact addrDefined_of_regAt hreg
  | nop => rfl
  | gen => rfl
  | rstph => rfl

theorem exec_of_completes {i : Instr} {s s₀ : State} {d : Word} (h : Completes i s d s₀) :
    exec i s = .next (respond 0 d s₀) := by
  cases h with
  | write v s hreg hrw => simp [exec_wrreg, execWrreg, hreg, hrw]
  | read s hreg => simp [exec_rdreg, execRdreg, hreg]
  | gen hr hn => exact exec_gen_complete hr hn
  | nop => rfl
  | rstph => rfl

theorem exec_of_wellFormed {i : Instr} (hi : i.wellFormed = true) (s : State) :
    (∃ d s₀, Completes i s d s₀) ∨ ∃ n t, i = .gen n ∧ GenHeld n s t ∧ exec i s = .next t := by
  cases i with
  | nop => exact .inl ⟨_, _, .nop s⟩
  | rstph => exact .inl ⟨_, _, .rstph s⟩
  | wrreg a v =>
    cases hreg : regAt a with
    | none => simp [Instr.wellFormed, (regAt_eq_none_iff a).1 hreg] at hi
    | some r =>
      rw [wellFormed_wrreg hreg, Bool.not_eq_true'] at hi
      exact .inl ⟨_, _, .write v s hreg hi⟩
  | rdreg a =>
    cases hreg : regAt a with
    | none => simp [Instr.wellFormed, (regAt_eq_none_iff a).1 hreg] at hi
    | some r => exact .inl ⟨_, _, .read s hreg⟩
  | gen n =>
    obtain ⟨m, r, -, hr, hn, ⟨rfl, -⟩ | ⟨hm, hw, hz, hx⟩ | ⟨hm, hz, -, hx⟩⟩ :=
      genFrom_cases n n.toNat s le_rfl
    · exact .inl ⟨_, _, .gen hr hn⟩
    · refine .inr ⟨n, heldForNoise n m r s, rfl, .noise hm hw hz, ?_⟩
      rw [exec_gen, hx, Nat.sub_self, Nat.zero_add]
      rfl
    · refine .inr ⟨n, heldForHost n m r s, rfl, .host hm hz, ?_⟩
      rw [exec_gen, hx, Nat.sub_self, Nat.zero_add]
      rfl

/-- What one command can do. -/
theorem exec_cases {i : Instr} {s t : State} (h : exec i s = .next t) :
    (i.wellFormed = false ∧ ∃ e : ErrorCode, (e = .addr ∨ e = .ro) ∧ t = raise e s) ∨
    (∃ d s₀, Completes i s d s₀ ∧ t = respond 0 d s₀) ∨
    (∃ n, i = .gen n ∧ GenHeld n s t) := by
  cases hi : i.wellFormed with
  | false =>
    obtain ⟨e, he, hx⟩ := exec_of_not_wellFormed hi
    rw [hx] at h
    exact .inl ⟨rfl, e, he, (Host.Outcome.next.inj h).symm⟩
  | true =>
    obtain ⟨d, s₀, hc⟩ | ⟨n, t', rfl, ht', hx⟩ := exec_of_wellFormed hi s
    · rw [exec_of_completes hc] at h
      exact .inr (.inl ⟨d, s₀, hc, (Host.Outcome.next.inj h).symm⟩)
    · rw [hx] at h
      exact .inr (.inr ⟨n, rfl, Host.Outcome.next.inj h ▸ ht'⟩)

/-- No command stops (R150). -/
theorem exec_next (i : Instr) (s : State) : ∃ t, exec i s = .next t := by
  cases hi : i.wellFormed with
  | false =>
    obtain ⟨e, -, hx⟩ := exec_of_not_wellFormed hi
    exact ⟨_, hx s⟩
  | true =>
    obtain ⟨d, s₀, hc⟩ | ⟨n, t, -, -, hx⟩ := exec_of_wellFormed hi s
    · exact ⟨_, exec_of_completes hc⟩
    · exact ⟨t, hx⟩

/-- What going on with a held command can do: it tries the response again, goes on with the samples, or waits on
for the host to take the sample that is computed. -/
theorem resume_cases (b : Busy) (s : State) :
    (∃ r, b = .respond r ∧ resume b s = respond r.status r.data s) ∨
    (∃ n i, b = .gen n i none ∧ resume b s = genFrom n (n.toNat - i) s) ∨
    (∃ n i w, b = .gen n i (some w) ∧ s.smpReady.take = none ∧ resume b s = s) ∨
    (∃ n i w s₁, b = .gen n i (some w) ∧ emit w s = some s₁ ∧
      resume b s = genFrom n (n.toNat - (i + 1)) s₁) := by
  cases b with
  | respond r => exact .inl ⟨r, rfl, rfl⟩
  | gen n i pending =>
    cases pending with
    | none => exact .inr (.inl ⟨n, i, rfl, rfl⟩)
    | some w =>
      cases h : emit w s with
      | none => exact .inr (.inr (.inl ⟨n, i, w, rfl, emit_eq_none.1 h, by simp [resume, h]⟩))
      | some s₁ => exact .inr (.inr (.inr ⟨n, i, w, s₁, rfl, h, by simp [resume, h]⟩))

end Sys2Proof.Machine
end

section
/-! The frames of the commands: what each leaves unchanged (20_memory.md section 2, 40_generate.md section 3,
41_control.md). -/

namespace Sys2Proof.Machine
open Sys2Proof.Claims

/-! ### A register write -/

/-- A write reaches no register but its own. -/
theorem writeReg_frame (r : Reg) (v : Word) (s : State) :
    (r ≠ .wave → (writeReg r v s).wave = s.wave) ∧ (r ≠ .freq → (writeReg r v s).freq = s.freq) ∧
    (r ≠ .detune → (writeReg r v s).detune = s.detune) ∧ (r ≠ .harm → (writeReg r v s).harm = s.harm) ∧
    (r ≠ .phase → (writeReg r v s).phase = s.phase) ∧
    (∀ k, r ≠ .hph k → (writeReg r v s).hph.get k = s.hph.get k) ∧
    (r ≠ .status → (writeReg r v s).err = s.err ∧ (writeReg r v s).ecode = s.ecode) := by
  cases r with
  | status =>
    rw [writeReg, clearStatus_eq]
    split_ifs
    · simp
    · simp
  | hph j =>
    have hget : ∀ k, j ≠ k → (s.hph.set j (legalPhase s.params v)).get k = s.hph.get k := fun k hjk =>
      (HarmonicPhases.get_set ..).trans (if_neg hjk.symm)
    simpa [writeReg] using hget
  | _ => simp [writeReg]

theorem writeReg_err_ecode {r : Reg} (h : r ≠ .status) (v : Word) (s : State) :
    (writeReg r v s).err = s.err ∧ (writeReg r v s).ecode = s.ecode := by
  obtain ⟨-, -, -, -, -, -, hstatus⟩ := writeReg_frame r v s
  exact hstatus h

/-- Settles O39: the register at the address is the only one written, and an error writes none but STATUS. -/
theorem writeChangesOnlyItsRegister : Obligations.WriteChangesOnlyItsRegister := by
  unfold Obligations.WriteChangesOnlyItsRegister
  intro s t a v h
  obtain ⟨hwf, e, -, rfl⟩ | ⟨d, s₀, hc, rfl⟩ | ⟨n, hn, -⟩ := exec_cases h
  · simp [hwf]
  · cases hc with
    | @write _ r _ _ hreg hrw =>
      have hne : ∀ r' : Reg, a ≠ r'.addr → r ≠ r' := by
        rintro r' ha rfl
        exact ha (addr_of_regAt hreg).symm
      simp only [respond_wave, respond_freq, respond_detune, respond_harm, respond_phase, respond_hph,
        respond_err, respond_ecode]
      obtain ⟨hwave, hfreq, hdetune, hharm, hphase, hhph, hstatus⟩ := writeReg_frame r v s
      exact ⟨fun ha => hwave (hne .wave ha), fun ha => hfreq (hne .freq ha), fun ha => hdetune (hne .detune ha),
        fun ha => hharm (hne .harm ha), fun ha => hphase (hne .phase ha), fun k ha => hhph k (hne (.hph k) ha),
        fun _ ha => hstatus (hne .status ha)⟩
  · cases hn

/-! ### The commands that are not GEN -/

theorem sameInputs_raise (e : ErrorCode) (s : State) : SameInputs s (raise e s) := by
  simp [SameInputs]

theorem Completes.sameInputs {i : Instr} {s s₀ : State} {d : Word} (h : Completes i s d s₀)
    (hi : ∀ n, i ≠ .gen n) : SameInputs s s₀ := by
  cases h with
  | gen => exact absurd rfl (hi _)
  | write => simp [SameInputs]
  | nop => exact ⟨rfl, rfl, rfl, rfl, rfl, rfl⟩
  | read => exact ⟨rfl, rfl, rfl, rfl, rfl, rfl⟩
  | rstph => exact ⟨rfl, rfl, rfl, rfl, rfl, rfl⟩

/-- Settles O38: an error writes only STATUS; a command that comes to its response has written only its own
registers, NOP and RDREG none. -/
theorem registerCommandsLeaveTheStreamsAlone : Obligations.RegisterCommandsLeaveTheStreamsAlone := by
  unfold Obligations.RegisterCommandsLeaveTheStreamsAlone
  intro i s t hi h
  obtain ⟨hwf, e, -, rfl⟩ | ⟨d, s₀, hc, rfl⟩ | ⟨n, hn, -⟩ := exec_cases h
  · refine ⟨sameInputs_raise e s, fun _ => by simp [SameTone], ?_, by simp⟩
    rintro (rfl | rfl | ⟨a, rfl, ha⟩)
    · cases hwf
    · cases hwf
    · simp [Instr.wellFormed, addrDefined, firstReservedAddr, ha] at hwf
  · have hin : SameInputs s (respond 0 d s₀) := by simpa [SameInputs] using hc.sameInputs hi
    refine ⟨hin, ?_⟩
    cases hc with
    | gen => exact absurd rfl (hi _)
    | write => simp
    | nop => simp [SameTone]
    | read => simp [SameTone]
    | rstph => simp
  · exact absurd hn (hi n)

/-! ### GEN, and going on with a held command -/

/-- What neither a run of samples nor a response changes. -/
structure KeepsControl (s t : State) : Prop where
  params : t.params = s.params
  wave : t.wave = s.wave
  freq : t.freq = s.freq
  detune : t.detune = s.detune
  harm : t.harm = s.harm
  err : t.err = s.err
  ecode : t.ecode = s.ecode
  cmd : t.cmd = s.cmd
  rst : t.rst = s.rst

theorem keepsControl_respond (c : BitVec 4) (d : Word) (s : State) : KeepsControl s (respond c d s) := by
  constructor <;> simp

theorem genFrom_keepsControl {n : Word} {k : Nat} (hk : k ≤ n.toNat) (s : State) :
    KeepsControl s (genFrom n k s) := by
  obtain ⟨m, r, -, -, -, ⟨-, h⟩ | ⟨-, -, -, h⟩ | ⟨-, -, -, h⟩⟩ := genFrom_cases n k s hk <;> rw [h]
  · constructor <;> simp [afterSamples]
  · constructor <;> rfl
  · constructor <;> rfl

theorem resume_keepsControl (b : Busy) (s : State) : KeepsControl s (resume b s) := by
  obtain ⟨r, -, h⟩ | ⟨n, i, -, h⟩ | ⟨n, i, w, -, -, h⟩ | ⟨n, i, w, s₁, -, hemit, h⟩ :=
    resume_cases b s <;> rw [h]
  · exact keepsControl_respond r.status r.data s
  · exact genFrom_keepsControl (Nat.sub_le _ _) s
  · constructor <;> rfl
  · obtain ⟨q, -, rfl⟩ := emit_eq_some hemit
    exact { genFrom_keepsControl (Nat.sub_le _ _) { s with smp := s.smp ++ [w], smpReady := q } with }

theorem step_of_busy {s : State} {b : Busy} (hrst : s.rst = false) (hbusy : s.busy = some b) :
    step s = .next (resume b s) := by
  simp [step, hrst, hbusy]

theorem step_of_idle {s : State} (hrst : s.rst = false) (hbusy : s.busy = none) (hcmd : s.cmd = []) :
    step s = .next s := by
  simp [step, hrst, hbusy, hcmd]

/-- A step that takes no word and meets no reset request goes on with a held command or is idle (R52, R164). -/
theorem step_keepsControl {s t : State} (hrst : s.rst = false) (hkept : s.busy ≠ none ∨ s.cmd = [])
    (h : step s = .next t) : KeepsControl s t := by
  cases hbusy : s.busy with
  | some b =>
    rw [step_of_busy hrst hbusy] at h
    exact Host.Outcome.next.inj h ▸ resume_keepsControl b s
  | none =>
    rw [step_of_idle hrst hbusy (hkept.resolve_left (absurd hbusy))] at h
    cases h
    constructor <;> rfl

theorem exec_gen_keepsControl {n : Word} {s t : State} (h : exec (.gen n) s = .next t) : KeepsControl s t := by
  rw [exec_gen] at h
  exact Host.Outcome.next.inj h ▸ genFrom_keepsControl le_rfl s

@[simp] theorem heldForNoise_smp (n : Word) (m : Nat) (r : Readiness) (s : State) :
    (heldForNoise n m r s).smp = s.smp ++ genSamples s m := by
  simp [heldForNoise, afterSamples, genSamples]

@[simp] theorem heldForHost_smp (n : Word) (m : Nat) (r : Readiness) (s : State) :
    (heldForHost n m r s).smp = s.smp ++ genSamples s m := by
  simp [heldForHost, afterSamples, genSamples]

/-- The noise stream after m samples is what is left of it once m words, or none, are taken (R55). -/
theorem exists_append_noiseAfter (s : State) (m : Nat) :
    ∃ taken, s.nz = taken ++ noiseAfter s m ∧ (effectiveWave s.wave ≠ .noise → taken = []) ∧
      (effectiveWave s.wave = .noise → m ≤ s.nz.length → taken.length = m) := by
  by_cases hw : effectiveWave s.wave = .noise
  · exact ⟨s.nz.take m, by simp [noiseAfter, hw], fun h => absurd hw h, fun _ => List.length_take_of_le⟩
  · exact ⟨[], by simp [noiseAfter, hw], fun _ => rfl, fun h => absurd h hw⟩

/-- A command that has come to its response is no longer at a sample. -/
theorem respond_busy_ne_gen (c : BitVec 4) (d : Word) (s : State) (n : Word) (i : Nat) (x : Option Word) :
    (respond c d s).busy ≠ some (.gen n i x) := by
  obtain ⟨q, -, h⟩ | ⟨-, h⟩ := respond_cases s c d <;> rw [h]
  · nofun
  · nofun

/-- Settles O40: a GEN that ends has sent its n samples and advanced the phases; one that is held has sent
fewer and has left the phases. -/
theorem genLeavesTheOperandRegistersAlone : Obligations.GenLeavesTheOperandRegistersAlone := by
  unfold Obligations.GenLeavesTheOperandRegistersAlone
  intro s t n h
  obtain ⟨hparams, hwave, hfreq, hdetune, hharm, herr, hecode, hcmd, hrst⟩ := exec_gen_keepsControl h
  refine ⟨hparams, hwave, hfreq, hdetune, hharm, herr, hecode, hcmd, hrst, ?_⟩
  obtain ⟨hwf, -⟩ | ⟨d, s₀, hc, rfl⟩ | ⟨n', hn, hheld⟩ := exec_cases h
  · cases hwf
  · cases hc with
    | @gen _ _ r hr hn =>
      obtain ⟨taken, hnz, hnone, hlen⟩ := exists_append_noiseAfter s n.toNat
      refine ⟨⟨genSamples s n.toNat, by simp, by simp, fun _ => by simp⟩,
        ⟨taken, by simpa using hnz, hnone, fun hw _ => hlen hw (hn hw)⟩, ?_⟩
      rintro ⟨i, x, hbusy⟩
      exact absurd hbusy (respond_busy_ne_gen _ _ _ _ _ _)
  · cases hn
    cases hheld with
    | @noise m r hm hw hz =>
      obtain ⟨taken, hnz, hnone, -⟩ := exists_append_noiseAfter s m
      exact ⟨⟨genSamples s m, by simp, by simpa using hm.le, nofun⟩, ⟨taken, hnz, hnone, nofun⟩,
        fun _ => ⟨rfl, rfl⟩⟩
    | @host m r hm hn =>
      obtain ⟨taken, hnz, hnone, -⟩ := exists_append_noiseAfter s (m + 1)
      exact ⟨⟨genSamples s m, by simp, by simpa using hm.le, nofun⟩, ⟨taken, hnz, hnone, nofun⟩,
        fun _ => ⟨rfl, rfl⟩⟩

end Sys2Proof.Machine
end

section
/-! The response of a command (20_memory.md R53, R56), and what it leaves in STATUS (10_state.md R28,
60_exceptions.md R155). -/

namespace Sys2Proof.Machine
open Sys2Proof.Claims

/-- A command's response reaches the host as the last one, or is what the command waits with (R53). -/
theorem respond_sends (c : BitVec 4) (d : Word) (s : State) :
    ((respond c d s).busy = none ∧ (respond c d s).rsp = s.rsp ++ [⟨c, d⟩]) ∨
    ((respond c d s).busy ≠ none ∧ (respond c d s).rsp = s.rsp) := by
  obtain ⟨r, -, hx⟩ | ⟨-, hx⟩ := respond_cases s c d <;> rw [hx]
  · exact .inl ⟨rfl, rfl⟩
  · exact .inr ⟨nofun, rfl⟩

/-- Before it comes to its response a command changes neither the parameters nor a reset request nor the response
stream. -/
theorem Completes.keeps {i : Instr} {s s₀ : State} {d : Word} (h : Completes i s d s₀) :
    s₀.params = s.params ∧ s₀.rst = s.rst ∧ s₀.rsp = s.rsp ∧ s₀.rspReady = s.rspReady := by
  cases h with
  | write => simp
  | _ => exact ⟨rfl, rfl, rfl, rfl⟩

theorem GenHeld.busy_rsp {n : Word} {s t : State} (h : GenHeld n s t) : t.busy ≠ none ∧ t.rsp = s.rsp := by
  cases h with
  | noise => exact ⟨nofun, rfl⟩
  | host => exact ⟨nofun, rfl⟩

theorem errorCode_code_ne_zero (e : ErrorCode) : e.code ≠ 0 := by cases e <;> decide

/-- Settles O41: an error responds with its code, which is not 0; any other command that comes to its response
is well-formed and responds OK; a GEN that is held at a sample has not come to it. -/
theorem everyCommandSendsOneResponse : Obligations.EveryCommandSendsOneResponse := by
  unfold Obligations.EveryCommandSendsOneResponse
  intro i s t h
  obtain ⟨hwf, e, -, rfl⟩ | ⟨d, s₀, hc, rfl⟩ | ⟨n, -, hheld⟩ := exec_cases h
  · obtain ⟨hbusy, hrsp⟩ | hwait := respond_sends e.code 0 (recordError e s)
    · exact .inl ⟨hbusy, ⟨e.code, 0⟩, hrsp, by simp [hwf],
        fun _ => ⟨(raise_ecode s e).symm, errorCode_code_ne_zero e, rfl⟩⟩
    · exact .inr hwait
  · have hsends := respond_sends 0 d s₀
    obtain ⟨-, -, hrsp₀, -⟩ := hc.keeps
    rw [hrsp₀] at hsends
    obtain ⟨hbusy, hrsp⟩ | hwait := hsends
    · exact .inl ⟨hbusy, ⟨0, d⟩, hrsp, fun _ => rfl, by simp [hc.wellFormed]⟩
    · exact .inr hwait
  · exact .inr hheld.busy_rsp

/-! ### STATUS -/

theorem statusAfter_of_not_write {i : Instr} {s t : State} (hwf : i.wellFormed = true)
    (hi : ∀ v, i ≠ .wrreg 0x0D v) (ht : t.err = s.err ∧ t.ecode = s.ecode) : StatusAfter i s t := by
  refine ⟨by simp [hwf], ?_, fun _ _ => ht⟩
  rintro - ⟨v, rfl, -⟩
  exact absurd rfl (hi v)

/-- A write of STATUS clears it where bit 0 of the operand is set, and otherwise leaves it (R138). -/
theorem statusAfter_clearStatus (v : Word) (s : State) :
    StatusAfter (.wrreg 0x0D v) s (clearStatus v s) := by
  rw [clearStatus_eq]
  split_ifs with hbit
  · exact ⟨nofun, fun _ _ => ⟨rfl, rfl⟩, fun _ hno => absurd ⟨v, rfl, hbit⟩ hno⟩
  · refine ⟨nofun, ?_, fun _ _ => ⟨rfl, rfl⟩⟩
    rintro - ⟨v', hv, hbit'⟩
    cases hv
    exact absurd hbit' hbit

theorem Completes.statusAfter {i : Instr} {s s₀ : State} {d : Word} (h : Completes i s d s₀) :
    StatusAfter i s s₀ := by
  have hwf := h.wellFormed
  cases h with
  | @write a r v _ hreg _ =>
    obtain rfl : r.addr = a := addr_of_regAt hreg
    by_cases hr : r = .status
    · subst hr
      exact statusAfter_clearStatus v s
    · refine statusAfter_of_not_write hwf (fun v' hv => hr ?_) (writeReg_err_ecode hr v s)
      have haddr : r.addr = 0x0D := (Instr.wrreg.inj hv).1
      exact Option.some.inj (hreg.symm.trans (congrArg regAt haddr))
  | nop => exact statusAfter_of_not_write hwf nofun ⟨rfl, rfl⟩
  | read => exact statusAfter_of_not_write hwf nofun ⟨rfl, rfl⟩
  | gen => exact statusAfter_of_not_write hwf nofun ⟨rfl, rfl⟩
  | rstph => exact statusAfter_of_not_write hwf nofun ⟨rfl, rfl⟩

theorem exec_statusAfter {i : Instr} {s t : State} (h : exec i s = .next t) : StatusAfter i s t := by
  obtain ⟨hwf, e, he, rfl⟩ | ⟨d, s₀, hc, rfl⟩ | ⟨n, rfl, -⟩ := exec_cases h
  · refine ⟨fun _ => ⟨raise_err s e, ?_⟩, by simp [hwf], by simp [hwf]⟩
    obtain rfl | rfl := he
    · exact .inl (raise_ecode s .addr)
    · exact .inr (raise_ecode s .ro)
  · simpa [StatusAfter] using hc.statusAfter
  · have hk := exec_gen_keepsControl h
    exact statusAfter_of_not_write rfl nofun ⟨hk.err, hk.ecode⟩

/-- Settles O42: a step is a reset, goes on with a held command, is idle, rejects a word or runs a command, and
each says what it does to STATUS. -/
theorem statusChangesOnlyByErrorOrClear : Obligations.StatusChangesOnlyByErrorOrClear := by
  unfold Obligations.StatusChangesOnlyByErrorOrClear
  refine ⟨fun i s t => exec_statusAfter, fun s t h => ⟨?reset, ?kept, ?word⟩⟩
  case reset =>
    intro hrst
    rw [step_of_rst hrst] at h
    cases h
    exact ⟨rfl, rfl⟩
  case kept =>
    intro hrst hkept
    have hk := step_keepsControl hrst hkept h
    exact ⟨hk.err, hk.ecode⟩
  case word =>
    intro w rest hrst hbusy hcmd
    refine ⟨fun e hdec => ?_, fun i hdec => ?_⟩
    · rw [step_of_decode_error hrst hbusy hcmd hdec] at h
      cases h
      exact ⟨raise_err _ e, raise_ecode _ e⟩
    · rw [step_of_decode_ok hrst hbusy hcmd hdec] at h
      exact exec_statusAfter (s := { s with cmd := rest }) h

end Sys2Proof.Machine
end

section
/-! What every step does, whatever the state: it ends in a next state (60_exceptions.md R150), with the
same parameters (00_scope.md R7), and takes a word only when no command is in progress (20_memory.md R52). -/

namespace Sys2Proof.Machine
open Sys2Proof.Claims

/-- Settles O43: each kind of step ends in a next state, a command by `exec_next`. -/
theorem noStepStops : Obligations.NoStepStops := by
  unfold Obligations.NoStepStops
  intro s
  obtain ⟨-, h⟩ | ⟨-, b, -, h⟩ | ⟨-, -, -, h⟩ | ⟨-, -, w, rest, e, -, -, h⟩ | ⟨-, -, w, rest, i, -, -, h⟩ :=
    step_cases s
  · exact ⟨_, h⟩
  · exact ⟨_, h⟩
  · exact ⟨_, h⟩
  · exact ⟨_, h⟩
  · obtain ⟨t, ht⟩ := exec_next i (takeCmd rest s)
    exact ⟨t, h.trans ht⟩

theorem exec_params {i : Instr} {s t : State} (h : exec i s = .next t) : t.params = s.params := by
  obtain ⟨-, e, -, rfl⟩ | ⟨d, s₀, hc, rfl⟩ | ⟨n, rfl, -⟩ := exec_cases h
  · exact raise_params s e
  · exact (respond_params ..).trans hc.keeps.1
  · exact (exec_gen_keepsControl h).params

/-- Settles O44: a reset keeps the parameters, and no command or held command writes them. -/
theorem parametersNeverChange : Obligations.ParametersNeverChange := by
  unfold Obligations.ParametersNeverChange
  intro s t h
  obtain ⟨-, hx⟩ | ⟨-, b, -, hx⟩ | ⟨-, -, -, hx⟩ | ⟨-, -, w, rest, e, -, -, hx⟩ |
    ⟨-, -, w, rest, i, -, -, hx⟩ := step_cases s <;> rw [hx] at h
  · cases h; rfl
  · exact Host.Outcome.next.inj h ▸ (resume_keepsControl b s).params
  · cases h; rfl
  · cases h; exact raise_params ..
  · exact exec_params (s := takeCmd rest s) h

/-- Settles O47: this is the step's own case for a word that decodes. -/
theorem stepRunsTheDecodedCommand : Obligations.StepRunsTheDecodedCommand := by
  unfold Obligations.StepRunsTheDecodedCommand
  exact fun _ _ _ _ hrst hbusy hcmd hdec => step_of_decode_ok hrst hbusy hcmd hdec

/-- Settles O48: a held command goes on without a word, and an idle block's next state is its own. -/
theorem stepTakesNoWordWhileBusy : Obligations.StepTakesNoWordWhileBusy := by
  unfold Obligations.StepTakesNoWordWhileBusy
  intro s t hrst h
  refine ⟨fun hbusy => (step_keepsControl hrst (.inl hbusy) h).cmd, fun hbusy hcmd => ?_⟩
  rw [step_of_idle hrst hbusy hcmd] at h
  exact (Host.Outcome.next.inj h).symm

/-- Settles O49: the placed word stands first, decodes to its command, and nothing keeps the step from it. -/
theorem placedWordIsRunNext : Obligations.PlacedWordIsRunNext := by
  unfold Obligations.PlacedWordIsRunNext
  intro s i
  rw [State.withFetchWord, ofNat_toNat_mod_two_pow]
  exact step_of_decode_ok (s := offerFirst (encode i) s) rfl rfl rfl (decode_encode i)

/-- Settles O51: a reset keeps of the state only the parameters, the words that have moved, the offered command
words and the host's readiness; in the reset state these are what they are at the start. -/
theorem resetAbandonsTheCommand : Obligations.ResetAbandonsTheCommand := by
  unfold Obligations.ResetAbandonsTheCommand
  exact ⟨fun s hrst =>
      ⟨applyReset s, step_of_rst hrst, rfl, rfl, rfl, rfl, HarmonicPhases.get_zero, rfl, rfl, rfl⟩,
    fun p => ⟨step_of_rst rfl, rfl, rfl, rfl, rfl⟩⟩

end Sys2Proof.Machine
end

section
/-! A command whose response the host does not take (20_memory.md R56). -/

namespace Sys2Proof.Machine
open Sys2Proof.Claims

/-- No command looks at the host's readiness for responses before it comes to its own (R53). -/
theorem Completes.setResponseReady {i : Instr} {s s₀ : State} {d : Word} (h : Completes i s d s₀)
    (q : Readiness) : Completes i (setResponseReady q s) d (setResponseReady q s₀) := by
  cases h with
  | nop => exact .nop _
  | @write a r v _ hreg hrw =>
    have hcomm : Machine.setResponseReady q (writeReg r v s) = writeReg r v (Machine.setResponseReady q s) := by
      cases r with
      | status => simp only [writeReg, clearStatus]; split <;> rfl
      | _ => rfl
    rw [hcomm]
    exact .write v _ hreg hrw
  | read _ hreg => exact .read (Machine.setResponseReady q s) hreg
  | gen hr hn => exact .gen (s := Machine.setResponseReady q s) hr hn
  | rstph => exact .rstph (Machine.setResponseReady q s)

/-- What a command leaves for its response to be sent in: a state s₀ that differs from s neither in the response
stream nor in a reset request, and that is the same for every readiness of the host. -/
theorem exec_responds {i : Instr} {s t : State} (h : exec i s = .next t) :
    (∃ c d s₀, s₀.rspReady = s.rspReady ∧ s₀.rsp = s.rsp ∧ s₀.rst = s.rst ∧ t = respond c d s₀ ∧
      ∀ q, exec i (setResponseReady q s) = .next (respond c d (setResponseReady q s₀))) ∨
    ∃ n, i = .gen n ∧ GenHeld n s t := by
  cases hi : i.wellFormed with
  | false =>
    obtain ⟨e, -, hx⟩ := exec_of_not_wellFormed hi
    rw [hx] at h
    exact .inl ⟨e.code, 0, recordError e s, rfl, rfl, rfl, (Host.Outcome.next.inj h).symm, fun q => hx _⟩
  | true =>
    obtain ⟨hno, -⟩ | ⟨d, s₀, hc, ht⟩ | hheld := exec_cases h
    · simp [hi] at hno
    · obtain ⟨-, hrst, hrsp, hready⟩ := hc.keeps
      exact .inl ⟨0, d, s₀, hready, hrsp, hrst, ht, fun q => exec_of_completes (hc.setResponseReady q)⟩
    · exact .inr hheld

/-- While the host does not take it, a response stays the command's only remaining act. -/
theorem held_of_untaken {s : State} (hrst : s.rst = false) (hnone : s.rspReady.take = none) (c : BitVec 4)
    (d : Word) : (waiting s c d).Held := by
  refine ⟨nofun, hrst, ?_⟩
  rw [step_of_busy (s := waiting s c d) hrst rfl, resume, waiting, respond_busy, respond_held hnone]

/-- A host that is ready again gets the response that the command waits with. -/
theorem step_setResponseReady_waiting {s : State} (hrst : s.rst = false) (q : Readiness) (c : BitVec 4)
    (d : Word) : step (setResponseReady q (waiting s c d)) = .next (respond c d (setResponseReady q s)) := by
  rw [step_of_busy (s := setResponseReady q (waiting s c d)) hrst rfl]
  exact congrArg _ (respond_busy (setResponseReady q s) _ c d)

/-- Settles O20: a command is the same up to its response for every readiness of the host, and a held GEN that
has come to its response is not at a sample. -/
theorem untakenResponseHoldsTheCommand : Obligations.UntakenResponseHoldsTheCommand := by
  unfold Obligations.UntakenResponseHoldsTheCommand
  intro i s t q q' hrst hnone hq h
  obtain ⟨c, d, s₀, hready, hrsp, hrst₀, rfl, hexec⟩ | ⟨n, rfl, hheld⟩ := exec_responds h
  case inl =>
    have hnone₀ : s₀.rspReady.take = none := by rw [hready, hnone]
    have hrst₀ : s₀.rst = false := hrst₀.trans hrst
    have hsent : respond c d (setResponseReady q s₀) =
        { s₀ with rsp := s.rsp ++ [⟨c, d⟩], rspReady := q', busy := none } := by
      rw [respond_ready (s := setResponseReady q s₀) hq, ← hrsp]
      rfl
    rw [respond_held hnone₀]
    refine ⟨fun _ => ⟨_, rfl⟩, fun r hr => ?_⟩
    obtain rfl : Response.mk c d = r := Busy.respond.inj (Option.some.inj hr)
    exact ⟨held_of_untaken hrst₀ hnone₀ c d, hrsp, (hexec q).trans (congrArg _ hsent),
      (step_setResponseReady_waiting hrst₀ q c d).trans (congrArg _ hsent)⟩
  case inr =>
    refine ⟨fun hi => absurd rfl (hi n), fun r hr => ?_⟩
    cases hheld with
    | noise => cases hr
    | host => cases hr

end Sys2Proof.Machine
end

section
/-! Every step keeps the state legal (10_state.md sections 1 to 4, 30_encoding.md section 4). -/

namespace Sys2Proof.Machine
open Sys2Proof.Claims

/-- Settles O45: every register and stream is 0 or empty. -/
theorem resetStateIsLegal : Obligations.ResetStateIsLegal := by
  unfold Obligations.ResetStateIsLegal
  intro p
  exact {
    phase_fits := turn_pos p
    hph_fits := fun k => by cases k <;> exact turn_pos p
    harm_range := Nat.zero_le _
    err_iff := by simp [State.resetOf]
    ecode_defined := Nat.zero_le _
    busy_legal := nofun
    smp_fit := nofun
    rsp_legal := nofun }

/-! ### The operations that commands are made of -/

theorem legal_response_ok (d : Word) : Response.Legal ⟨0, d⟩ := ⟨Nat.zero_le _, absurd rfl⟩

theorem legal_response_error (e : ErrorCode) : Response.Legal ⟨e.code, 0⟩ :=
  ⟨by cases e <;> decide, fun _ => rfl⟩

theorem State.Legal.respond {s : State} (hs : s.Legal) {c : BitVec 4} {d : Word}
    (hr : Response.Legal ⟨c, d⟩) : (respond c d s).Legal := by
  obtain ⟨q, -, h⟩ | ⟨-, h⟩ := respond_cases s c d <;> rw [h]
  · exact { hs with
      busy_legal := nofun
      rsp_legal := List.forall_mem_append.2 ⟨hs.rsp_legal, List.forall_mem_singleton.2 hr⟩ }
  · exact { hs with busy_legal := by rintro _ ⟨⟩; exact hr }

theorem State.Legal.recordError {s : State} (hs : s.Legal) (e : ErrorCode) : (recordError e s).Legal :=
  { hs with
    err_iff := iff_of_true rfl (errorCode_code_ne_zero e)
    ecode_defined := (legal_response_error e).1 }

theorem State.Legal.raise {s : State} (hs : s.Legal) (e : ErrorCode) : (raise e s).Legal :=
  (hs.recordError e).respond (legal_response_error e)

theorem State.Legal.takeCmd {s : State} (hs : s.Legal) (rest : List CmdWord) : (takeCmd rest s).Legal :=
  { hs with }

theorem State.Legal.advancePhases {s : State} (hs : s.Legal) (n : Nat) : (advancePhases n s).Legal :=
  { hs with
    phase_fits := by rw [advancePhases_phase, toNat_ofNat_phaseAt]; exact s.phaseAt_lt n
    hph_fits := fun k => by
      rw [advancePhases_hph, HarmonicPhases.get_ofFn, toNat_ofNat_harmonicAt]
      exact s.harmonicAt_lt k n }

theorem State.Legal.resetPhases {s : State} (hs : s.Legal) : (resetPhases s).Legal :=
  { hs with
    phase_fits := turn_pos _
    hph_fits := fun k => by rw [resetPhases_hph, HarmonicPhases.get_zero]; exact turn_pos _ }

theorem State.Legal.clearStatus {s : State} (hs : s.Legal) (v : Word) : (clearStatus v s).Legal := by
  unfold Machine.clearStatus
  split
  · exact { hs with err_iff := by simp, ecode_defined := Nat.zero_le _ }
  · exact hs

/-- A register takes only the legal part of an operand (R132 to R138). -/
theorem State.Legal.writeReg {s : State} (hs : s.Legal) (r : Reg) (v : Word) : (writeReg r v s).Legal := by
  have hphase : (legalPhase s.params v).toNat < s.params.turn := by
    rw [toNat_legalPhase]
    exact Nat.mod_lt _ (turn_pos _)
  cases r with
  | harm => exact { hs with harm_range := (toNat_legalHarm v).trans_le (Nat.min_le_right _ _) }
  | phase => exact { hs with phase_fits := hphase }
  | hph k =>
    refine { hs with hph_fits := fun j => ?_ }
    rw [Machine.writeReg, HarmonicPhases.get_set]
    split
    · exact hphase
    · exact hs.hph_fits j
  | status => exact hs.clearStatus v
  | _ => exact { hs with }

theorem sampleWord_fits (s : State) (i : Nat) (nz : Word) : SampleFits s.params (sampleWord s i nz) :=
  sampleOfInt_lt _ _

theorem State.Legal.emit {s t : State} (hs : s.Legal) {w : Word} (hw : SampleFits s.params w)
    (h : emit w s = some t) : t.Legal := by
  obtain ⟨r, -, rfl⟩ := emit_eq_some h
  exact { hs with smp_fit := List.forall_mem_append.2 ⟨hs.smp_fit, List.forall_mem_singleton.2 hw⟩ }

theorem State.Legal.afterSamples {s : State} (hs : s.Legal) (i m : Nat) (r : Readiness) :
    (afterSamples s i m r).Legal :=
  { hs with
    smp_fit := List.forall_mem_append.2 ⟨hs.smp_fit, List.forall_mem_map.2 fun _ _ => sampleWord_fits s _ _⟩ }

/-- A run of samples ends with its response, or is held at a sample of the command that is still to come. -/
theorem State.Legal.genFrom {s : State} (hs : s.Legal) {n : Word} {k : Nat} (hk : k ≤ n.toNat) :
    (genFrom n k s).Legal := by
  obtain ⟨m, r, -, -, -, ⟨-, h⟩ | ⟨hm, -, -, h⟩ | ⟨hm, -, -, h⟩⟩ := genFrom_cases n k s hk <;> rw [h]
  · exact ((hs.afterSamples _ m r).advancePhases _).respond (legal_response_ok 0)
  · exact { hs.afterSamples _ m r with busy_legal := by rintro _ ⟨⟩; exact ⟨by omega, nofun⟩ }
  · exact { hs.afterSamples _ m r with
      busy_legal := by rintro _ ⟨⟩; exact ⟨by omega, by rintro _ ⟨⟩; exact sampleWord_fits s _ _⟩ }

/-! ### Commands and steps -/

theorem State.Legal.resume {s : State} (hs : s.Legal) {b : Busy} (hb : b ∈ s.busy) : (resume b s).Legal := by
  obtain ⟨r, rfl, h⟩ | ⟨n, i, rfl, h⟩ | ⟨n, i, w, rfl, -, h⟩ | ⟨n, i, w, s₁, rfl, hemit, h⟩ :=
    resume_cases b s <;> rw [h]
  · exact hs.respond (hs.busy_legal _ hb)
  · exact hs.genFrom (Nat.sub_le _ _)
  · exact hs
  · obtain ⟨-, hfits⟩ := hs.busy_legal _ hb
    exact (hs.emit (hfits w rfl) hemit).genFrom (Nat.sub_le _ _)

theorem Completes.legal {i : Instr} {s s₀ : State} {d : Word} (h : Completes i s d s₀) (hs : s.Legal) :
    s₀.Legal := by
  cases h with
  | nop => exact hs
  | write v => exact hs.writeReg _ v
  | read => exact hs
  | gen => exact (hs.afterSamples ..).advancePhases _
  | rstph => exact hs.resetPhases

theorem State.Legal.exec {s t : State} (hs : s.Legal) {i : Instr} (h : exec i s = .next t) : t.Legal := by
  obtain ⟨-, e, -, rfl⟩ | ⟨d, s₀, hc, rfl⟩ | ⟨n, rfl, -⟩ := exec_cases h
  · exact hs.raise e
  · exact (hc.legal hs).respond (legal_response_ok d)
  · rw [exec_gen] at h
    exact Host.Outcome.next.inj h ▸ hs.genFrom le_rfl

/-- A reset keeps only words that have moved. -/
theorem State.Legal.applyReset {s : State} (hs : s.Legal) : (applyReset s).Legal :=
  { resetStateIsLegal s.params with smp_fit := hs.smp_fit, rsp_legal := hs.rsp_legal }

/-- Settles O46: a register takes the legal part of an operand, a phase is reduced mod the turn, a sample word
is made of an OUT_W-bit integer, and a response is OK or an error's. -/
theorem everyStepKeepsTheStateLegal : Obligations.EveryStepKeepsTheStateLegal := by
  unfold Obligations.EveryStepKeepsTheStateLegal
  intro s t hs h
  obtain ⟨-, hx⟩ | ⟨-, b, hb, hx⟩ | ⟨-, -, -, hx⟩ | ⟨-, -, w, rest, e, -, -, hx⟩ |
    ⟨-, -, w, rest, i, -, -, hx⟩ := step_cases s <;> rw [hx] at h
  · exact Host.Outcome.next.inj h ▸ hs.applyReset
  · exact Host.Outcome.next.inj h ▸ hs.resume hb
  · exact Host.Outcome.next.inj h ▸ hs
  · exact Host.Outcome.next.inj h ▸ (hs.takeCmd rest).raise e
  · exact (hs.takeCmd rest).exec h

end Sys2Proof.Machine
end

section
/-! GEN held at a sample, and how it goes on (20_memory.md R55 and R56, 40_generate.md R113). -/

namespace Sys2Proof.Machine
open Sys2Proof.Claims

/-! ### The hold at a sample -/

/-- A run that has samples to come and finds no noise word is held at the next of them. -/
theorem genFrom_of_no_noise {n : Word} {k : Nat} {s : State} (hk : 0 < k) (hw : effectiveWave s.wave = .noise)
    (hz : s.nz = []) : genFrom n k s = { s with busy := some (.gen n (n.toNat - k) none) } := by
  obtain ⟨k, rfl⟩ := Nat.exists_eq_add_one_of_ne_zero hk.ne'
  rw [genFrom, takeNoise_eq_none.2 ⟨hw, hz⟩]

/-- The noise word of the next sample is taken where there is one, or where none is needed (R55). -/
theorem takeNoise_of_enough {s : State} (hn : effectiveWave s.wave = .noise → 0 < s.nz.length) :
    takeNoise s = some (noiseAt s 0, { s with nz := noiseAfter s 1 }) := by
  cases h : takeNoise s with
  | none =>
    obtain ⟨hw, hz⟩ := takeNoise_eq_none.1 h
    exact absurd (hn hw) (by simp [hz])
  | some x =>
    obtain ⟨w, s₁⟩ := x
    obtain ⟨rfl, rfl, -⟩ := takeNoise_eq h
    rfl

/-- A run whose next sample the host does not take is held with that sample computed. -/
theorem genFrom_of_untaken {n : Word} {k : Nat} {s : State} (hk : 0 < k)
    (hn : effectiveWave s.wave = .noise → 0 < s.nz.length) (hr : s.smpReady.take = none) :
    genFrom n k s = { s with
      nz := noiseAfter s 1
      busy := some (.gen n (n.toNat - k) (some (sampleWord s (n.toNat - k) (noiseAt s 0)))) } := by
  obtain ⟨k, rfl⟩ := Nat.exists_eq_add_one_of_ne_zero hk.ne'
  have hemit : ∀ w, emit w { s with nz := noiseAfter s 1 } = none := fun w =>
    (emit_eq_none (s := { s with nz := noiseAfter s 1 })).2 hr
  simp only [genFrom, takeNoise_of_enough hn, hemit]
  rfl

/-- A held sample that the host takes at last is the one that the run would have sent there. -/
theorem resume_of_taken {n : Word} {k : Nat} {s : State} {q : Readiness} (hk : 0 < k) (hkn : k ≤ n.toNat)
    (hn : effectiveWave s.wave = .noise → 0 < s.nz.length) (hq : s.smpReady.take = some q) (b : Option Busy) :
    resume (.gen n (n.toNat - k) (some (sampleWord s (n.toNat - k) (noiseAt s 0))))
      { s with nz := noiseAfter s 1, busy := b } = genFrom n k s := by
  obtain ⟨k, rfl⟩ := Nat.exists_eq_add_one_of_ne_zero hk.ne'
  have hi : n.toNat - (n.toNat - (k + 1) + 1) = k := by omega
  simp only [resume, emit, hq, hi, genFrom, takeNoise_of_enough hn]
  exact genFrom_busy n k { s with
    nz := noiseAfter s 1, smp := s.smp ++ [sampleWord s (n.toNat - (k + 1)) (noiseAt s 0)], smpReady := q } b

/-! ### What m samples leave -/

theorem afterSamples_eq (s : State) (m : Nat) (r : Readiness) :
    afterSamples s 0 m r = { s with smp := s.smp ++ genSamples s m, nz := noiseAfter s m, smpReady := r } := by
  simp [afterSamples, genSamples]

theorem afterSamples_noiseAt (s : State) (i m j : Nat) (r : Readiness) :
    noiseAt (afterSamples s i m r) j = noiseAt s (m + j) := by
  by_cases hw : effectiveWave s.wave = .noise <;> simp [noiseAt, afterSamples, noiseAfter, hw]

theorem afterSamples_noiseAfter (s : State) (i m j : Nat) (r : Readiness) :
    noiseAfter (afterSamples s i m r) j = noiseAfter s (m + j) := by
  by_cases hw : effectiveWave s.wave = .noise <;> simp [noiseAfter, afterSamples, hw]

theorem length_noiseAfter_pos {s : State} {m : Nat} (hn : effectiveWave s.wave = .noise → m < s.nz.length)
    (hw : effectiveWave s.wave = .noise) : 0 < (noiseAfter s m).length := by
  simpa [noiseAfter, hw] using hn hw

/-- The state held for the host is the one after m samples with the next noise word taken. -/
theorem heldForHost_eq (n : Word) (m : Nat) (r : Readiness) (s : State) :
    heldForHost n m r s = { afterSamples s 0 m r with
      nz := noiseAfter (afterSamples s 0 m r) 1
      busy := some (.gen n m
        (some (sampleWord (afterSamples s 0 m r) m (noiseAt (afterSamples s 0 m r) 0)))) } := by
  rw [afterSamples_noiseAfter, afterSamples_noiseAt]
  rfl

theorem genSamples_eq (s : State) (m : Nat) :
    genSamples s m = (List.range m).map fun i => sampleWord s i (s.nz.getD i 0) := by
  simp only [genSamples, sampleWord_noiseAt]

/-! ### The two holds -/

section Held

variable {s : State} {n : Word} {m : Nat} {r : Readiness} (hm : m < n.toNat)
include hm

section Exec

variable (hr : s.smpReady.takeMany m = some r)
include hr

/-- A GEN whose first m samples can move goes on from the state after them. -/
theorem exec_gen_split (hn : effectiveWave s.wave = .noise → m ≤ s.nz.length) :
    exec (.gen n) s = .next (genFrom n (n.toNat - m) (afterSamples s 0 m r)) := by
  have hsum : m + (n.toNat - m) = n.toNat := by omega
  have h := genFrom_add n m (n.toNat - m) s r hsum.le hr hn
  rw [hsum, Nat.sub_self] at h
  rw [exec_gen, h]

theorem exec_gen_heldForNoise (hw : effectiveWave s.wave = .noise) (hz : s.nz.length = m) :
    exec (.gen n) s = .next (heldForNoise n m r s) := by
  have hnz : noiseAfter s m = [] := by simp [noiseAfter, hw, hz]
  rw [exec_gen_split hm hr fun _ => hz.ge,
    genFrom_of_no_noise (s := afterSamples s 0 m r) (Nat.sub_pos_of_lt hm) hw hnz, Nat.sub_sub_self hm.le]
  rfl

/-- The state held for the host is on the way of the GEN that does not stop there. -/
theorem step_heldForHost_of_taken {q : Readiness} (hn : effectiveWave s.wave = .noise → m < s.nz.length)
    (hq : r.take = some q) (hrst : s.rst = false) : step (heldForHost n m r s) = exec (.gen n) s := by
  have hgo := resume_of_taken (s := afterSamples s 0 m r) (Nat.sub_pos_of_lt hm) (Nat.sub_le _ _)
    (length_noiseAfter_pos hn) hq (heldForHost n m r s).busy
  rw [Nat.sub_sub_self hm.le, afterSamples_noiseAt, afterSamples_noiseAfter] at hgo
  rw [exec_gen_split hm hr fun hw => (hn hw).le, step_of_busy (s := heldForHost n m r s) hrst rfl]
  exact congrArg _ hgo

theorem exec_gen_heldForHost (hn : effectiveWave s.wave = .noise → m < s.nz.length) (hnone : r.take = none) :
    exec (.gen n) s = .next (heldForHost n m r s) := by
  rw [exec_gen_split hm hr fun hw => (hn hw).le,
    genFrom_of_untaken (s := afterSamples s 0 m r) (Nat.sub_pos_of_lt hm) (length_noiseAfter_pos hn) hnone,
    Nat.sub_sub_self hm.le, heldForHost_eq]

end Exec

/-- Without a noise word the held GEN stays where it is (R56). -/
theorem heldForNoise_held (hw : effectiveWave s.wave = .noise) (hz : s.nz.length = m) (hrst : s.rst = false) :
    (heldForNoise n m r s).Held := by
  have hnz : (heldForNoise n m r s).nz = [] := by simp [heldForNoise, afterSamples, noiseAfter, hw, hz]
  refine ⟨nofun, hrst, ?_⟩
  rw [step_of_busy (s := heldForNoise n m r s) hrst rfl, resume,
    genFrom_of_no_noise (s := heldForNoise n m r s) (Nat.sub_pos_of_lt hm) hw hnz, Nat.sub_sub_self hm.le]
  rfl

end Held

/-- While the host takes no sample the held GEN stays where it is (R56). -/
theorem heldForHost_held {s : State} {n : Word} {m : Nat} {r : Readiness} (hnone : r.take = none)
    (hrst : s.rst = false) : (heldForHost n m r s).Held := by
  refine ⟨nofun, hrst, ?_⟩
  rw [step_of_busy (s := heldForHost n m r s) hrst rfl, resume,
    emit_eq_none (s := heldForHost n m r s) |>.2 hnone]

/-- Settles O27: the noise words there are give as many samples; the next sample finds none. -/
theorem genWithoutNoiseIsHeld : Obligations.GenWithoutNoiseIsHeld := by
  unfold Obligations.GenWithoutNoiseIsHeld
  intro s n r hw hlen hready hrst
  have ht : heldForNoise n s.nz.length r s = { s with
      smp := s.smp ++ (List.range s.nz.length).map fun i => sampleWord s i (s.nz.getD i 0)
      nz := []
      smpReady := r
      busy := some (.gen n s.nz.length none) } := by
    rw [← genSamples_eq]
    simp [heldForNoise, afterSamples, genSamples, noiseAfter, hw]
  rw [← ht]
  exact ⟨exec_gen_heldForNoise hlen (takeMany_of_enough hready) hw rfl, heldForNoise_held hlen hw rfl hrst⟩

/-- Settles O28: credit for c words lets c samples go; the next is computed and stays. -/
theorem genWithoutTheHostIsHeld : Obligations.GenWithoutTheHostIsHeld := by
  unfold Obligations.GenWithoutTheHostIsHeld
  intro s n c hready hc hn hrst
  have ht : heldForHost n c (.credit 0) s = { s with
      smp := s.smp ++ (List.range c).map fun i => sampleWord s i (s.nz.getD i 0)
      nz := if effectiveWave s.wave = .noise then s.nz.drop (c + 1) else s.nz
      smpReady := .credit 0
      busy := some (.gen n c (some (sampleWord s c (s.nz.getD c 0)))) } := by
    rw [← genSamples_eq, ← sampleWord_noiseAt]
    simp [heldForHost, afterSamples, genSamples, noiseAfter]
  have hr : s.smpReady.takeMany c = some (.credit 0) := by simp [hready]
  rw [← ht]
  exact ⟨exec_gen_heldForHost hc hr hn rfl, heldForHost_held rfl hrst⟩

/-! ### Going on after a hold -/

/-- The first samples are made of the first noise words, whatever comes behind these. -/
theorem genSamples_append_noise {s : State} (hw : effectiveWave s.wave = .noise) (xs ys : List Word) :
    genSamples { s with nz := xs ++ ys } xs.length = genSamples { s with nz := xs } xs.length := by
  refine List.map_congr_left fun j hj => ?_
  have hat : noiseAt { s with nz := xs ++ ys } j = noiseAt { s with nz := xs } j := by
    simp [noiseAt, hw, List.getElem?_append_left (List.mem_range.1 hj)]
  rw [hat]
  rfl

/-- Noise words that come during the hold could have stood behind the first ones from the start. -/
theorem offerNoise_heldForNoise {s : State} (hw : effectiveWave s.wave = .noise) (n : Word) (r : Readiness)
    (xs ys : List Word) :
    offerNoise ys (heldForNoise n xs.length r { s with nz := xs }) =
      { afterSamples { s with nz := xs ++ ys } 0 xs.length r with busy := some (.gen n xs.length none) } := by
  simp [offerNoise, heldForNoise, afterSamples_eq, genSamples_append_noise hw, noiseAfter, hw]

/-- Settles O29: at the hold the run has done what it would have done with all the noise words. -/
theorem lateNoiseDelaysButDoesNotChange : Obligations.LateNoiseDelaysButDoesNotChange := by
  unfold Obligations.LateNoiseDelaysButDoesNotChange
  intro s t n xs ys hw hlen hready hrst h
  obtain ⟨r, hr⟩ := takeMany_of_takesAtLeast hready
  rw [exec_gen_heldForNoise (s := { s with nz := xs }) hlen hr hw rfl] at h
  obtain rfl := Host.Outcome.next.inj h
  rw [offerNoise_heldForNoise hw, exec_gen_split (s := { s with nz := xs ++ ys }) hlen hr (by simp),
    step_of_busy (s := { afterSamples { s with nz := xs ++ ys } 0 xs.length r with
      busy := some (.gen n xs.length none) }) hrst rfl, resume, genFrom_busy]

theorem takeMany_moreBy (c : Nat) (q : Readiness) : (moreBy c q).takeMany c = some q := by
  cases q with
  | always => exact Readiness.takeMany_always c
  | credit m => simp [moreBy]

/-- Readiness that comes during the hold could have been there from the start. -/
theorem setSampleReady_heldForHost (s : State) (n : Word) (c : Nat) (q r r' r'' : Readiness) :
    setSampleReady q (heldForHost n c r { s with smpReady := r' }) =
      heldForHost n c q { s with smpReady := r'' } := rfl

/-- The step that goes on with a GEN held for the host ends where the GEN would have, whether the hold goes on
or not. -/
theorem step_heldForHost {s : State} {n : Word} {m : Nat} {r : Readiness} (hm : m < n.toNat)
    (hr : s.smpReady.takeMany m = some r) (hn : effectiveWave s.wave = .noise → m < s.nz.length)
    (hrst : s.rst = false) : step (heldForHost n m r s) = exec (.gen n) s := by
  cases hq : r.take with
  | some q => exact step_heldForHost_of_taken hm hr hn hq hrst
  | none =>
    obtain ⟨-, -, hstep⟩ := heldForHost_held (s := s) (n := n) (m := m) hq hrst
    rw [hstep, exec_gen_heldForHost hm hr hn hq]

/-- Settles O30: at the hold the run has done what it would have done had the host been ready for more, and has
the next sample at hand. -/
theorem lateHostDelaysButDoesNotChange : Obligations.LateHostDelaysButDoesNotChange := by
  unfold Obligations.LateHostDelaysButDoesNotChange
  intro s t n c q hc hrst hn h
  have hr : (Readiness.credit c).takeMany c = some (.credit 0) := by simp
  rw [exec_gen_heldForHost (s := { s with smpReady := .credit c }) hc hr hn rfl] at h
  obtain rfl := Host.Outcome.next.inj h
  rw [setSampleReady_heldForHost s n c q _ _ (moreBy c q)]
  exact step_heldForHost (s := { s with smpReady := moreBy c q }) hc (takeMany_moreBy c q) hn hrst

end Sys2Proof.Machine
end

section
/-! GEN with a fallback waveform code (40_generate.md R105), and GEN from reset (70_reset_and_hazards.md
R173). -/

namespace Sys2Proof.Machine
open Sys2Proof.Claims

/-! ### The waveform code -/

section WaveCode

variable {c : BitVec 3} {s : State} (hc : effectiveWave c = effectiveWave s.wave)
include hc

theorem takeNoise_wave :
    takeNoise { s with wave := c } = (takeNoise s).map fun x => (x.1, { x.2 with wave := c }) := by
  simp only [takeNoise, hc]
  split
  · split <;> rfl
  · rfl

theorem sampleWord_wave (i : Nat) (nz : Word) : sampleWord { s with wave := c } i nz = sampleWord s i nz := by
  simp only [sampleWord, hc]
  rfl

end WaveCode

theorem emit_wave (w : Word) (c : BitVec 3) (s : State) :
    emit w { s with wave := c } = (emit w s).map fun x => { x with wave := c } := by
  simp only [emit]
  split <;> rfl

theorem respond_set_wave (k : BitVec 4) (d : Word) (c : BitVec 3) (s : State) :
    respond k d { s with wave := c } = { respond k d s with wave := c } := by
  simp only [respond]
  split <;> rfl

/-- A run looks at the waveform code only for the waveform it selects (R105). -/
theorem genFrom_wave (n : Word) (k : Nat) {c : BitVec 3} {s : State}
    (hc : effectiveWave c = effectiveWave s.wave) :
    genFrom n k { s with wave := c } = { genFrom n k s with wave := c } := by
  induction k generalizing s with
  | zero => exact respond_set_wave 0 0 c (advancePhases n.toNat s)
  | succ k ih =>
    simp only [genFrom, takeNoise_wave hc]
    cases hnz : takeNoise s with
    | none => rfl
    | some x =>
      obtain ⟨nz, s₁⟩ := x
      obtain ⟨-, hs₁, -⟩ := takeNoise_eq hnz
      have hc₁ : effectiveWave c = effectiveWave s₁.wave := by rw [hs₁]; exact hc
      simp only [Option.map_some, sampleWord_wave hc₁, emit_wave]
      cases hemit : emit (sampleWord s₁ (n.toNat - (k + 1)) nz) s₁ with
      | none => rfl
      | some s₂ =>
        obtain ⟨r, -, rfl⟩ := emit_eq_some hemit
        exact ih hc₁

/-- Settles O36: codes 5, 6, 7 and 0 all select sine, for which no noise word is taken. -/
theorem unknownWaveformActsAsSine : Obligations.UnknownWaveformActsAsSine := by
  unfold Obligations.UnknownWaveformActsAsSine
  intro s t n c hc h
  have hsine : effectiveWave c = .sine := effectiveWave_sine (.inr hc)
  refine ⟨?noise, ?sine⟩
  case noise =>
    obtain ⟨-, -, -, -, -, -, -, -, -, -, ⟨taken, hnz, hnone, -⟩, -⟩ :=
      genLeavesTheOperandRegistersAlone { s with wave := c } t n h
    simpa [hnone (by simp [hsine])] using hnz.symm
  case sine =>
    rw [exec_gen] at h
    obtain rfl := Host.Outcome.next.inj h
    rw [exec_gen]
    exact congrArg _ (genFrom_wave n n.toNat (c := 0) (s := { s with wave := c }) hsine.symm)

/-! ### From reset -/

/-- Without a phase increment every sample is at the phases of the first. -/
theorem State.phaseAt_of_inc_zero {s : State} (h : s.inc = 0) (i : Nat) : s.phaseAt i = s.phaseAt 0 := by
  simp [State.phaseAt, h]

theorem State.harmonicAt_of_inc_zero {s : State} (h : s.inc = 0) (k : Overtone) (i : Nat) :
    s.harmonicAt k i = s.harmonicAt k 0 := by
  simp [State.harmonicAt, h]

theorem resetOf_inc (p : Params) : (State.resetOf p).inc = 0 := tune_zero p 0

theorem resetOf_sampleWord (p : Params) (i : Nat) (nz : Word) : sampleWord (State.resetOf p) i nz = 0 := by
  rw [← sampleWord_zero_of_zero_phases (s := State.resetOf p) rfl rfl HarmonicPhases.get_zero nz]
  simp only [sampleWord, State.phaseAt_of_inc_zero (resetOf_inc p) i,
    State.harmonicAt_of_inc_zero (resetOf_inc p) _ i]

/-- With no frequency set, the phases stay where a GEN of no samples would leave them. -/
theorem afterGen_resetOf (p : Params) (n : Nat) :
    afterGen (State.resetOf p) n .always = { State.resetOf p with smp := List.replicate n 0 } := by
  have hlegal := resetStateIsLegal p
  have hphase : BitVec.ofNat 32 ((State.resetOf p).phaseAt n) = (State.resetOf p).phase := by
    rw [State.phaseAt_of_inc_zero (resetOf_inc p), hlegal.phaseAt_zero]
  have hhph : (HarmonicPhases.ofFn fun k => BitVec.ofNat 32 ((State.resetOf p).harmonicAt k n)) =
      (State.resetOf p).hph :=
    HarmonicPhases.ext_get fun k => by
      rw [HarmonicPhases.get_ofFn, State.harmonicAt_of_inc_zero (resetOf_inc p), hlegal.harmonicAt_zero]
  rw [afterGen_eq, hphase, hhph]
  simp only [resetOf_sampleWord, List.map_const', List.length_range]
  rfl

/-- Settles O37: FREQ is 0 after reset, so every sample is a sine at phase 0. -/
theorem genFromResetIsSilent : Obligations.GenFromResetIsSilent := by
  unfold Obligations.GenFromResetIsSilent
  intro p n
  rw [exec_gen_answered (s := State.resetOf p) (Readiness.takeMany_always _) nofun rfl, afterGen_resetOf]

end Sys2Proof.Machine
end

section
/-! `rne` is the nearest integer (00_scope.md R11). -/

namespace Sys2Proof.Machine
open Sys2Proof.Claims

/-- Any other integer is at least 1 from rne x, so at least 1/2 from x. -/
theorem half_le_abs_sub_of_ne_rne {x : Rat} {z : Int} (hz : z ≠ rne x) : 1 / 2 ≤ |x - z| := by
  obtain ⟨hnear, -⟩ := rne_spec x
  have hone : (1 : Rat) ≤ |(rne x : Rat) - z| := by
    exact_mod_cast Int.one_le_abs (sub_ne_zero.2 hz.symm)
  have htri : |(rne x : Rat) - z| ≤ |rne x - x| + |x - z| := abs_sub_le _ _ _
  rw [abs_sub_comm] at hnear
  linarith

/-- Settles O23: rne x is within 1/2 of x and every other integer is not within less. -/
theorem rneRoundsHalfToEven : Obligations.RneRoundsHalfToEven := by
  unfold Obligations.RneRoundsHalfToEven
  intro x
  obtain ⟨hnear, heven⟩ := rne_spec x
  refine ⟨fun z => ?nearest, fun z hz htie => heven ?tie⟩
  case nearest =>
    by_cases hz : z = rne x
    · rw [hz]
    · exact hnear.trans (half_le_abs_sub_of_ne_rne hz)
  case tie => exact hnear.antisymm ((half_le_abs_sub_of_ne_rne hz).trans_eq htie)

end Sys2Proof.Machine
end

section
/-! The bounds of a sample (40_generate.md R118). -/

namespace Sys2Proof.Machine
open Sys2Proof.Claims

theorem unit_pos_rat (p : Params) : (0 : Rat) < p.unit := by
  rw [cast_unit]; positivity

theorem abs_sineValue_le_one (p : Params) {θ : Nat} (hθ : θ < p.turn) : |sineValue p θ| ≤ 1 := by
  rw [sineValue, abs_div, Nat.abs_cast, div_le_one (unit_pos_rat p)]
  exact_mod_cast abs_sinf_le_unit p hθ.le

theorem abs_sawValue_le_one (p : Params) {θ : Nat} (hθ : θ < p.turn) : |sawValue p θ| ≤ 1 := by
  have h0 := phaseFraction_nonneg p θ
  have h1 := phaseFraction_lt_one p hθ
  rw [sawValue_eq, abs_le]
  split_ifs <;> constructor <;> linarith

theorem abs_triangleValue_le_one (p : Params) {θ : Nat} (hθ : θ < p.turn) : |triangleValue p θ| ≤ 1 := by
  have hsaw := abs_sawValue_le_one p hθ
  have h0 := abs_nonneg (sawValue p θ)
  rw [triangleValue_eq_abs_saw hθ, abs_le]
  constructor <;> linarith

theorem abs_pulseValue_le_one (p : Params) (θ : Nat) : |pulseValue p θ| ≤ 1 := by
  rw [pulseValue]
  split_ifs <;> simp

theorem abs_noiseValue_le_one (p : Params) (nz : Word) : |noiseValue p nz| ≤ 1 := by
  obtain ⟨hlo, hhi⟩ := clamp_mem (sampleToInt p nz) (lo := -p.unit) (hi := p.unit) (by omega)
  rw [noiseValue, abs_div, Nat.abs_cast, div_le_one (unit_pos_rat p)]
  exact_mod_cast abs_le.2 ⟨hlo, hhi⟩

theorem abs_baseValue_le_one (p : Params) (w : Waveform) {θ : Nat} (hθ : θ < p.turn) (nz : Word) :
    |baseValue p w θ nz| ≤ 1 := by
  cases w with
  | sine => exact abs_sineValue_le_one p hθ
  | saw => exact abs_sawValue_le_one p hθ
  | triangle => exact abs_triangleValue_le_one p hθ
  | pulse => exact abs_pulseValue_le_one p θ
  | noise => exact abs_noiseValue_le_one p nz

/-- The overtones' weights 1/2 to 1/8 add up to 481/280, so a bound on each overtone gives one on their sum
(R118, R119). -/
theorem abs_sum_overtones_le {K : Type} [Field K] [LinearOrder K] [IsStrictOrderedRing K] {a b : K} (ha : 0 ≤ a)
    {f : Overtone → K} (hf : ∀ k, |f k| ≤ b) :
    |(Overtone.all.map fun k => a / k.num * f k).sum| ≤ a * (481 / 280) * b := by
  have hterm : ∀ k : Overtone, |a / k.num * f k| ≤ a / k.num * b := by
    intro k
    have hak : 0 ≤ a / k.num := by positivity
    rw [abs_mul, abs_of_nonneg hak]
    exact mul_le_mul_of_nonneg_left (hf k) hak
  have hsum : ∀ l : List Overtone,
      |(l.map fun k => a / k.num * f k).sum| ≤ (l.map fun k => a / k.num * b).sum := by
    intro l
    induction l with
    | nil => simp
    | cons k l ih =>
      simp only [List.map_cons, List.sum_cons]
      exact (abs_add_le _ _).trans (add_le_add (hterm k) ih)
  refine (hsum Overtone.all).trans_eq ?_
  simp only [Overtone.all, List.map_cons, List.map_nil, List.sum_cons, List.sum_nil, Overtone.num]
  push_cast
  ring

theorem overtoneSum_eq_sineValue (p : Params) (harm : BitVec 16) (h : Overtone → Nat) :
    overtoneSum p harm h = (Overtone.all.map fun k => harmonicAmount harm / k.num * sineValue p (h k)).sum := by
  simp only [overtoneSum_eq, sineValue_eq]

theorem harmonicAmount_nonneg (harm : BitVec 16) : 0 ≤ harmonicAmount harm := by
  unfold harmonicAmount; positivity

theorem State.Legal.harmonicAmount_le_one {s : State} (hs : s.Legal) : harmonicAmount s.harm ≤ 1 := by
  rw [harmonicAmount, div_le_one (by norm_num)]
  exact_mod_cast hs.harm_range

theorem abs_overtoneSum_le (p : Params) (harm : BitVec 16) {h : Overtone → Nat} (hh : ∀ k, h k < p.turn) :
    |overtoneSum p harm h| ≤ harmonicAmount harm * (481 / 280) := by
  rw [overtoneSum_eq_sineValue]
  simpa using abs_sum_overtones_le (harmonicAmount_nonneg harm) fun k => abs_sineValue_le_one p (hh k)

/-- With OUT_W at least FRAC + 3 a sum of size at most 761/280 is well inside the sample range (R118). -/
theorem sampleValue_of_room {p : Params} (hroom : p.frac + 3 ≤ p.outW) {b h : Rat}
    (hsum : |b + h| ≤ 761 / 280) :
    sampleValue p b h = rne (p.unit * (b + h)) := by
  have hunit : (2 : Int) ≤ p.unit := by
    exact_mod_cast Nat.pow_le_pow_right (n := 2) (by decide) p.frac_legal
  have hrange : 4 * (p.unit : Int) ≤ 2 ^ (p.outW - 1) := by
    have hpow : 2 ^ (p.frac + 2) ≤ 2 ^ (p.outW - 1) := Nat.pow_le_pow_right (by decide) (by omega)
    rw [Nat.pow_add, Nat.mul_comm] at hpow
    exact_mod_cast hpow
  obtain ⟨hlo, hhi⟩ := abs_le.1 hsum
  have hu := unit_pos_rat p
  have h3 : rne (p.unit * (b + h)) ≤ 3 * p.unit := rne_le_of_le (by push_cast; nlinarith)
  have h3' : -(3 * p.unit) ≤ rne (p.unit * (b + h)) := le_rne_of_le (by push_cast; nlinarith)
  rw [sampleValue, satS]
  push_cast
  exact clamp_of_mem (by omega) (by omega)

/-- Settles O33: base value and overtones are built of values of size at most 1, and HARM is at most 0x8000. -/
theorem samplesStayWithinTheOutputBound : Obligations.SamplesStayWithinTheOutputBound := by
  unfold Obligations.SamplesStayWithinTheOutputBound
  intro s i nz hs b h
  have hb : |b| ≤ 1 := abs_baseValue_le_one _ _ (s.phaseAt_lt i) nz
  have hh : |h| ≤ harmonicAmount s.harm * (481 / 280) := abs_overtoneSum_le _ _ fun k => s.harmonicAt_lt k i
  have hA := hs.harmonicAmount_le_one
  have hsum : |b + h| ≤ 761 / 280 := by
    have := abs_add_le b h
    linarith
  refine ⟨hb, hh, hsum, fun hroom => ?_⟩
  rw [sampleToInt_sampleWord, sampleValue_of_room hroom hsum, cast_unit]

end Sys2Proof.Machine
end

section
/-! The distance of a sample from the real laws (40_generate.md R119). -/

namespace Sys2Proof.Machine
open Sys2Proof.Claims

/-! ### The phase -/

/-- INC is within 1/2 of the real increment, modulo whole turns (R101). -/
theorem inc_near (s : State) :
    ∃ z : Int, |tuneReal s.params s.freq s.detune.toInt - s.inc - z * s.params.turn| ≤ 1 / 2 := by
  obtain ⟨hnear, -⟩ := yRounded_roundsToEven s.params s.freq s.detune
  refine ⟨(yRounded s.params s.freq s.detune.toInt / s.params.turn : Nat), ?_⟩
  have hdiv := Nat.mod_add_div (yRounded s.params s.freq s.detune.toInt) s.params.turn
  have hcast : (s.inc : ℝ) + s.params.turn * (yRounded s.params s.freq s.detune.toInt / s.params.turn : Nat) =
      yRounded s.params s.freq s.detune.toInt := by
    exact_mod_cast hdiv
  convert hnear using 2
  rw [Int.cast_natCast]
  linarith

/-- A phase is the unreduced one less whole turns (R103). -/
theorem phaseAt_eq_sub_turns (s : State) (i : Nat) :
    ∃ q : Int, (s.phaseAt i : ℝ) = s.phase.toNat + i * s.inc - q * s.params.turn := by
  refine ⟨((s.phase.toNat + i * s.inc) / s.params.turn : Nat), ?_⟩
  have hdiv := Nat.mod_add_div (s.phase.toNat + i * s.inc) s.params.turn
  have hcast : (s.phaseAt i : ℝ) + s.params.turn * ((s.phase.toNat + i * s.inc) / s.params.turn : Nat) =
      s.phase.toNat + i * s.inc := by
    exact_mod_cast hdiv
  rw [Int.cast_natCast]
  linarith

/-- Settles O34: each of the i increments adds at most half a unit, and reducing takes off whole turns. -/
theorem phaseErrorGrowsByHalfAUnitPerSample : Obligations.PhaseErrorGrowsByHalfAUnitPerSample := by
  unfold Obligations.PhaseErrorGrowsByHalfAUnitPerSample
  intro s i y
  have hturn : (s.params.turn : ℝ) = 2 ^ s.params.phaseW := by simp [Params.turn]
  have hy : y = tuneReal s.params s.freq s.detune.toInt := by rw [tuneReal, hturn]
  obtain ⟨z, hz⟩ := inc_near s
  obtain ⟨q, hq⟩ := phaseAt_eq_sub_turns s i
  refine ⟨i * z + q, ?_⟩
  have herr : s.phase.toNat + i * y - s.phaseAt i - ((i * z + q : Int) : ℝ) * 2 ^ s.params.phaseW =
      i * (tuneReal s.params s.freq s.detune.toInt - s.inc - z * s.params.turn) := by
    rw [hq, hy, ← hturn]
    push_cast
    ring
  rw [herr, abs_mul, Nat.abs_cast]
  linarith [mul_le_mul_of_nonneg_left hz (Nat.cast_nonneg (α := ℝ) i)]

/-! ### The base waveforms -/

/-- 1 / 2^(FRAC + 1), half the last place of a sample word. -/
noncomputable def halfPlace (p : Params) : ℝ := 1 / 2 ^ (p.frac + 1)

theorem div_two_pow_eq_mul_halfPlace (p : Params) (c : ℝ) : c / 2 ^ (p.frac + 1) = c * halfPlace p :=
  div_eq_mul_one_div _ _

theorem halfPlace_eq (p : Params) : halfPlace p = 1 / 2 / p.unit := by
  rw [halfPlace, Params.unit, pow_succ', div_div]
  push_cast
  rfl

theorem abs_sineValue_sub_sin_le (p : Params) {θ : Nat} (hθ : θ ≤ p.turn) :
    |(sineValue p θ : ℝ) - Real.sin (2 * Real.pi * θ / 2 ^ p.phaseW)| ≤ halfPlace p := by
  have hu := one_le_unit p
  have hnear := (sinf_near p hθ).le
  have hscaled : (sineValue p θ : ℝ) - Real.sin (2 * Real.pi * θ / 2 ^ p.phaseW) =
      (sinf p θ - scaledSine p θ) / p.unit := by
    have hturn : (p.turn : ℝ) = 2 ^ p.phaseW := by simp [Params.turn]
    rw [sineValue, scaledSine, hturn]
    push_cast
    field_simp
  rw [hscaled, abs_div, Nat.abs_cast, halfPlace_eq]
  gcongr

/-- The angle of a phase word, in turns. -/
theorem angle_div_two_pi (p : Params) (θ : Nat) :
    2 * Real.pi * θ / 2 ^ p.phaseW / (2 * Real.pi) = (phaseFraction p θ : ℝ) := by
  have hpi := Real.pi_ne_zero
  rw [phaseFraction, Params.turn]
  push_cast
  field_simp

/-- Within the first turn the nearest whole turn is 0 up to the half turn, and 1 above it (R107). -/
theorem roundHalfEven_of_mem {u : ℝ} (h0 : 0 ≤ u) (h1 : u < 1) :
    roundHalfEven u = if u ≤ 1 / 2 then 0 else 1 := by
  have hfract : Int.fract u = u := Int.fract_eq_self.2 ⟨h0, h1⟩
  have hfloor : ⌊u⌋ = 0 := Int.floor_eq_zero_iff.2 ⟨h0, h1⟩
  rw [roundHalfEven, hfract, hfloor]
  obtain h | h | h := lt_trichotomy u (1 / 2)
  · rw [if_pos h, if_pos h.le]
  · rw [if_neg h.not_lt, if_neg h.not_gt, if_pos Even.zero, if_pos h.le]
  · rw [if_neg h.not_gt, if_pos h, if_neg h.not_ge, zero_add]

theorem cast_phaseFraction_mem {p : Params} {θ : Nat} (hθ : θ < p.turn) :
    (0 : ℝ) ≤ phaseFraction p θ ∧ (phaseFraction p θ : ℝ) < 1 :=
  ⟨by exact_mod_cast phaseFraction_nonneg p θ, by exact_mod_cast phaseFraction_lt_one p hθ⟩

theorem cast_phaseFraction_le_half_iff (p : Params) (θ : Nat) :
    (phaseFraction p θ : ℝ) ≤ 1 / 2 ↔ phaseFraction p θ ≤ 1 / 2 := by
  rw [← Rat.cast_le (K := ℝ)]
  norm_num

/-- The model's saw is the source's (R93). -/
theorem realSaw_eq {p : Params} {θ : Nat} (hθ : θ < p.turn) :
    realSaw (2 * Real.pi * θ / 2 ^ p.phaseW) = sawValue p θ := by
  obtain ⟨h0, h1⟩ := cast_phaseFraction_mem hθ
  rw [realSaw, angle_div_two_pi, roundHalfEven_of_mem h0 h1, sawValue_eq]
  simp only [cast_phaseFraction_le_half_iff]
  split_ifs
  · push_cast; ring
  · push_cast; ring

theorem real_pulse_iff {p : Params} {θ : Nat} (hθ : θ < p.turn) :
    2 * Real.pi * Int.fract (2 * Real.pi * θ / 2 ^ p.phaseW / (2 * Real.pi)) < Real.pi ↔
      phaseFraction p θ < 1 / 2 := by
  obtain ⟨h0, h1⟩ := cast_phaseFraction_mem hθ
  have hpi := Real.pi_pos
  rw [angle_div_two_pi, Int.fract_eq_self.2 ⟨h0, h1⟩, ← Rat.cast_lt (K := ℝ)]
  push_cast
  constructor
  · intro h; nlinarith
  · intro h; nlinarith

theorem noiseValue_eq_clamp (p : Params) (nz : Word) :
    (noiseValue p nz : ℝ) = min 1 (max (-1) (((nz.setWidth p.outW).toInt : ℝ) / 2 ^ p.frac)) := by
  have hu : (0 : ℝ) < 2 ^ p.frac := by positivity
  rw [noiseValue_eq]
  push_cast
  rw [← min_div_div_right hu.le, ← max_div_div_right hu.le, neg_div, div_self hu.ne']

/-- Every waveform but the sine is exact (R119). -/
theorem realBase_eq {p : Params} {w : Waveform} (hw : w ≠ .sine) {θ : Nat} (hθ : θ < p.turn) (nz : Word) :
    realBase p w θ nz = baseValue p w θ nz := by
  cases w with
  | sine => exact absurd rfl hw
  | saw => exact realSaw_eq hθ
  | triangle =>
    simp only [realBase, baseValue, realSaw_eq hθ, triangleValue_eq_abs_saw hθ]
    push_cast
    rfl
  | pulse =>
    simp only [realBase, baseValue, real_pulse_iff hθ, pulseValue_eq]
    split_ifs <;> simp
  | noise => exact (noiseValue_eq_clamp p nz).symm

theorem abs_baseValue_sub_realBase_le (p : Params) (w : Waveform) {θ : Nat} (hθ : θ < p.turn) (nz : Word) :
    |(baseValue p w θ nz : ℝ) - realBase p w θ nz| ≤ (if w = .sine then 1 else 0) * halfPlace p := by
  by_cases hw : w = .sine
  · subst hw
    rw [if_pos rfl, one_mul]
    exact abs_sineValue_sub_sin_le p hθ.le
  · rw [if_neg hw, realBase_eq hw hθ]
    simp

/-! ### The overtones, the rounding and their sum -/

theorem overtoneSum_sub_realOvertones (p : Params) (harm : BitVec 16) (h : Overtone → Nat) :
    (overtoneSum p harm h : ℝ) - realOvertones p harm h =
      (Overtone.all.map fun k => (harm.toNat : ℝ) / 2 ^ 15 / k.num *
        (sineValue p (h k) - Real.sin (2 * Real.pi * h k / 2 ^ p.phaseW))).sum := by
  simp only [overtoneSum_eq_sineValue, realOvertones, harmonicAmount, Overtone.all, List.map_cons, List.map_nil,
    List.sum_cons, List.sum_nil]
  push_cast
  ring

theorem abs_overtoneSum_sub_realOvertones_le (p : Params) (harm : BitVec 16) {h : Overtone → Nat}
    (hh : ∀ k, h k < p.turn) :
    |(overtoneSum p harm h : ℝ) - realOvertones p harm h| ≤
      (harm.toNat : ℝ) / 2 ^ 15 * (481 / 280) * halfPlace p := by
  rw [overtoneSum_sub_realOvertones]
  exact abs_sum_overtones_le (by positivity) fun k => abs_sineValue_sub_sin_le p (hh k).le

theorem abs_rne_div_sub_le (p : Params) (x : Rat) :
    |(rne (2 ^ p.frac * x) : ℝ) / 2 ^ p.frac - x| ≤ halfPlace p := by
  obtain ⟨hnear, -⟩ := rne_spec (2 ^ p.frac * x)
  have hreal : |(2 : ℝ) ^ p.frac * x - rne (2 ^ p.frac * x)| ≤ 1 / 2 := by
    have hcast := Rat.cast_le (K := ℝ) |>.2 hnear
    push_cast at hcast
    exact hcast
  have hscaled : (rne (2 ^ p.frac * x) : ℝ) / 2 ^ p.frac - x =
      -((2 : ℝ) ^ p.frac * x - rne (2 ^ p.frac * x)) / 2 ^ p.frac := by
    field_simp
    ring
  rw [hscaled, abs_div, abs_neg, abs_of_pos (by positivity : (0 : ℝ) < 2 ^ p.frac), halfPlace_eq, Params.unit]
  push_cast
  gcongr

/-- Settles O35: the errors of the base sine, of the overtones and of the rounding add up. -/
theorem samplesStayCloseToTheRealLaws : Obligations.SamplesStayCloseToTheRealLaws := by
  unfold Obligations.SamplesStayCloseToTheRealLaws
  intro s i nz hs hroom
  obtain ⟨-, -, -, hexact⟩ := samplesStayWithinTheOutputBound s i nz hs
  rw [hexact hroom]
  have hbase := abs_baseValue_sub_realBase_le s.params (effectiveWave s.wave) (s.phaseAt_lt i) nz
  have hover := abs_overtoneSum_sub_realOvertones_le s.params s.harm fun k => s.harmonicAt_lt k i
  have hround := abs_rne_div_sub_le s.params (baseValue s.params (effectiveWave s.wave) (s.phaseAt i) nz +
    overtoneSum s.params s.harm fun k => s.harmonicAt k i)
  rw [Rat.cast_add] at hround
  rw [div_two_pow_eq_mul_halfPlace]
  rw [abs_le] at hbase hover hround ⊢
  constructor <;> linarith

end Sys2Proof.Machine
end
